-- ==== Sys2Proof/Word.lean ====
section
/-!
DEFINITION. The word types of the machine: GPRLEN = 32 (spec rule R5), a byte of 8 bits (R31).
-/

namespace Sys2Proof

/-- A value of GPRLEN = 32 bits: a general register, the program counter, a virtual address, an
instruction word (R5, R23, R32, R70). -/
abbrev Word := BitVec 32

/-- One byte of memory (R31). -/
abbrev Byte := BitVec 8

end Sys2Proof
end

