-- ==== Sys2Proof/Machine/Flags.lean ====
section
/-!
DEFINITION. The machine has no status flag and no condition code (R28). What the spec computes in their place: the overflow
tests behind the Integer Overflow exception (R100), and the Boolean SLT and SLTI put in a general register (R106).
-/

namespace Sys2Proof.Machine

/-- `v` lies in the range of a signed 32-bit integer. -/
def fitsSigned (v : Int) : Bool := decide (-(2 ^ 31) ≤ v) && decide (v ≤ 2 ^ 31 - 1)

/-- `ovf_add(a, b)`: the exact signed sum does not fit (R100). -/
def ovfAdd (a b : Word) : Bool := !fitsSigned (a.toInt + b.toInt)

/-- `ovf_sub(a, b)`: the exact signed difference does not fit (R100). -/
def ovfSub (a b : Word) : Bool := !fitsSigned (a.toInt - b.toInt)

/-- `a <s b` as the value 1 or 0 (R106). -/
def signedLess (a b : Word) : Word := if a.toInt < b.toInt then 1#32 else 0#32

end Sys2Proof.Machine
end

