-- ==== Sys2Proof/Config.lean ====
section
/-!
DEFINITION. The parameters a run is given (R8, R242), as plain data: byte order (R7), address translation with
PSIZE (R6, R52), the physical addresses that exist (R54), the reset address (R34) and the end address (R250).
They are fixed for a run: State holds them and no step changes them (assumption entry 1).
-/

namespace Sys2Proof

/-- `ReverseEndian` = 0 (R7): no instruction in scope can set it (entry 24). -/
def reverseEndian : Bool := false

/-- The argument of `AddressTranslation` that tells a fetch from a data access (R52). -/
inductive IorD where
  | instruction
  | data
  deriving DecidableEq, Repr

/-- The argument of `AddressTranslation` that gives the direction of the access (R52). -/
inductive LorS where
  | load
  | store
  deriving DecidableEq, Repr

/-- What one row of a translation table says of the virtual addresses it covers (R52): a physical place, or one of
the four exceptions a translation may return. -/
inductive Mapping where
  /-- The aligned word that holds the row's first address lies at physical word number `word` (byte address
  `4 * word`), and the words after it follow on. -/
  | physical (word : Nat)
  | tlbRefill
  | tlbInvalid
  | tlbModified
  | addressError
  deriving DecidableEq, Repr

/-- One row of a translation table: it covers the virtual byte addresses `first` to `last` (both included) for one
kind of access. -/
structure TranslationRow where
  iord : IorD
  lors : LorS
  first : Word
  last : Word
  mapping : Mapping
  deriving DecidableEq, Repr

/-- The `AddressTranslation` parameter (R52) as data: a finite table of rows, the first row that covers an access
deciding it, and the identity where no row does. Every function R52 admits is of this form, one row an address at
the worst (entry 3). `psize` is the width in bits of a physical address (R6). -/
structure AddressTranslation where
  psize : Nat
  rows : List TranslationRow
  deriving DecidableEq, Repr

/-- The default instance of R52: the identity, PSIZE = 32, never an exception. -/
def AddressTranslation.identity : AddressTranslation := { psize := 32, rows := [] }

/-- A run of consecutive physical byte addresses, both ends included. -/
structure AddressRange where
  first : Nat
  last : Nat
  deriving DecidableEq, Repr

/-- The parameters of a run (R8, R242). -/
structure Params where
  /-- `BigEndianMem` (R7). -/
  bigEndianMem : Bool
  /-- `AddressTranslation` with `PSIZE` (R6, R52). -/
  translation : AddressTranslation
  /-- `PhysMem` (R54): a physical byte address exists when one of these runs holds it. -/
  physMem : List AddressRange
  /-- `ResetPC` (R34). -/
  resetPC : Word
  /-- `EndPC` (R250); `none`: no end address is set and no run ends (entry 6). -/
  endPC : Option Word
  deriving DecidableEq, Repr

/-- What the spec asks of the parameters: a physical address has room for the two bits R52 (b) keeps, `ResetPC` and
`EndPC` are multiples of 4 (R34, R250). No step depends on it; it is for statements. -/
abbrev Params.wf (p : Params) : Prop :=
  2 ≤ p.translation.psize ∧ p.resetPC.toNat % 4 = 0 ∧ ∀ e ∈ p.endPC, e.toNat % 4 = 0

/-- The parameters State.reset stands on. The identity translation with PSIZE = 32 is the spec's default (R52); the
other values are open in the spec and named here: DESIGN CHOICE, entries 2, 4, 5 and 6. -/
def Params.default : Params where
  bigEndianMem := false
  translation := AddressTranslation.identity
  physMem := [{ first := 0, last := 0xFFFFFFFF }]
  resetPC := 0#32
  endPC := none

end Sys2Proof
end

