-- ==== Sys2Proof/Syntax.lean ====
section
/-!
DEFINITION. The instructions: one constructor per row of spec/opcode_table.json, in the table's order, the operands in
the order of the source's Format lines (R89). Every field has the width its encoding gives it (R71).
-/

namespace Sys2Proof

/-- A register specifier: the number in a 5-bit `rs`, `rt`, `rd` or `base` field (R20, R71). -/
abbrev RegId := BitVec 5

/-- The instructions of R2: 35 of MIPS I, and LWU, whose words this hardware answers with Reserved Instruction. -/
inductive Instr where
  | add (rd rs rt : RegId)                                 -- R101
  | addi (rt rs : RegId) (immediate : BitVec 16)           -- R102
  | addu (rd rs rt : RegId)                                -- R103
  | and (rd rs rt : RegId)                                 -- R120
  | andi (rt rs : RegId) (immediate : BitVec 16)           -- R121
  | beq (rs rt : RegId) (offset : BitVec 16)               -- R140
  | bne (rs rt : RegId) (offset : BitVec 16)               -- R141
  | j (index : BitVec 26)                                  -- R142
  | jal (index : BitVec 26)                                -- R143
  | jalr (rd rs : RegId)                                   -- R145
  | jr (rs : RegId)                                        -- R144
  | lb (rt : RegId) (offset : BitVec 16) (base : RegId)    -- R160
  | lbu (rt : RegId) (offset : BitVec 16) (base : RegId)   -- R161
  | lh (rt : RegId) (offset : BitVec 16) (base : RegId)    -- R162
  | lhu (rt : RegId) (offset : BitVec 16) (base : RegId)   -- R163
  | lui (rt : RegId) (immediate : BitVec 16)               -- R122
  | lw (rt : RegId) (offset : BitVec 16) (base : RegId)    -- R164
  | lwu (rt : RegId) (offset : BitVec 16) (base : RegId)   -- R165
  | nor (rd rs rt : RegId)                                 -- R123
  | or (rd rs rt : RegId)                                  -- R124
  | ori (rt rs : RegId) (immediate : BitVec 16)            -- R125
  | sb (rt : RegId) (offset : BitVec 16) (base : RegId)    -- R180
  | sh (rt : RegId) (offset : BitVec 16) (base : RegId)    -- R181
  | sll (rd rt : RegId) (sa : BitVec 5)                    -- R190
  | sllv (rd rt rs : RegId)                                -- R191
  | slt (rd rs rt : RegId)                                 -- R106
  | slti (rt rs : RegId) (immediate : BitVec 16)           -- R107
  | sra (rd rt : RegId) (sa : BitVec 5)                    -- R192
  | srav (rd rt rs : RegId)                                -- R193
  | srl (rd rt : RegId) (sa : BitVec 5)                    -- R194
  | srlv (rd rt rs : RegId)                                -- R195
  | sub (rd rs rt : RegId)                                 -- R104
  | subu (rd rs rt : RegId)                                -- R105
  | sw (rt : RegId) (offset : BitVec 16) (base : RegId)    -- R182
  | xor (rd rs rt : RegId)                                 -- R126
  | xori (rt rs : RegId) (immediate : BitVec 16)           -- R127
  deriving DecidableEq, Repr

end Sys2Proof
end

