-- ==== Sys2Proof/Decode.lean ====
section
/-!
DEFINITION. From bits to instructions and back (30_encoding.md): the fields (R71), the strict decoder (R80, R81, R86, R87),
the encoder (R72 to R78, R82), the rows of the opcode table with their match and mask (R82), and a word's bytes in memory
in either byte order (R40, R41).
-/

namespace Sys2Proof

/-! ### Fields (R71) -/

def opcodeOf (w : Word) : BitVec 6 := w.extractLsb' 26 6
def rsOf (w : Word) : RegId := w.extractLsb' 21 5
def rtOf (w : Word) : RegId := w.extractLsb' 16 5
def rdOf (w : Word) : RegId := w.extractLsb' 11 5
def saOf (w : Word) : BitVec 5 := w.extractLsb' 6 5
def functionOf (w : Word) : BitVec 6 := w.extractLsb' 0 6
def immediateOf (w : Word) : BitVec 16 := w.extractLsb' 0 16
def indexOf (w : Word) : BitVec 26 := w.extractLsb' 0 26

/-! ### Decoder -/

/-- Why bytes are no instruction. -/
inductive DecodeError where
  /-- The word matches no row of the opcode table (R87 (b)): `refuse(UnknownEncoding)`. -/
  | unknownEncoding (w : Word)
  /-- Fewer than the four bytes of an instruction were given (R70). -/
  | truncated (bytes : Nat)
  deriving DecidableEq, Repr

/-- The instruction `i` where every should-be-zero field is zero, else the refusal (R86, R87). -/
def whenZero (zeros : Bool) (w : Word) (i : Instr) : Except DecodeError Instr :=
  if zeros then .ok i else .error (.unknownEncoding w)

/-- The rows with major opcode SPECIAL, by function field (R81), each with the fields its figure prints as zero. -/
def decodeSpecial (w : Word) : Except DecodeError Instr :=
  match functionOf w with
  | 0b000000#6 => whenZero (rsOf w == 0) w (.sll (rdOf w) (rtOf w) (saOf w))
  | 0b000010#6 => whenZero (rsOf w == 0) w (.srl (rdOf w) (rtOf w) (saOf w))
  | 0b000011#6 => whenZero (rsOf w == 0) w (.sra (rdOf w) (rtOf w) (saOf w))
  | 0b000100#6 => whenZero (saOf w == 0) w (.sllv (rdOf w) (rtOf w) (rsOf w))
  | 0b000110#6 => whenZero (saOf w == 0) w (.srlv (rdOf w) (rtOf w) (rsOf w))
  | 0b000111#6 => whenZero (saOf w == 0) w (.srav (rdOf w) (rtOf w) (rsOf w))
  | 0b001000#6 => whenZero (rtOf w == 0 && rdOf w == 0 && saOf w == 0) w (.jr (rsOf w))
  | 0b001001#6 => whenZero (rtOf w == 0 && saOf w == 0) w (.jalr (rdOf w) (rsOf w))
  | 0b100000#6 => whenZero (saOf w == 0) w (.add (rdOf w) (rsOf w) (rtOf w))
  | 0b100001#6 => whenZero (saOf w == 0) w (.addu (rdOf w) (rsOf w) (rtOf w))
  | 0b100010#6 => whenZero (saOf w == 0) w (.sub (rdOf w) (rsOf w) (rtOf w))
  | 0b100011#6 => whenZero (saOf w == 0) w (.subu (rdOf w) (rsOf w) (rtOf w))
  | 0b100100#6 => whenZero (saOf w == 0) w (.and (rdOf w) (rsOf w) (rtOf w))
  | 0b100101#6 => whenZero (saOf w == 0) w (.or (rdOf w) (rsOf w) (rtOf w))
  | 0b100110#6 => whenZero (saOf w == 0) w (.xor (rdOf w) (rsOf w) (rtOf w))
  | 0b100111#6 => whenZero (saOf w == 0) w (.nor (rdOf w) (rsOf w) (rtOf w))
  | 0b101010#6 => whenZero (saOf w == 0) w (.slt (rdOf w) (rsOf w) (rtOf w))
  | _ => .error (.unknownEncoding w)

/-- The decoder, by major opcode (R80). -/
def decodeWord (w : Word) : Except DecodeError Instr :=
  match opcodeOf w with
  | 0b000000#6 => decodeSpecial w
  | 0b000010#6 => .ok (.j (indexOf w))
  | 0b000011#6 => .ok (.jal (indexOf w))
  | 0b000100#6 => .ok (.beq (rsOf w) (rtOf w) (immediateOf w))
  | 0b000101#6 => .ok (.bne (rsOf w) (rtOf w) (immediateOf w))
  | 0b001000#6 => .ok (.addi (rtOf w) (rsOf w) (immediateOf w))
  | 0b001010#6 => .ok (.slti (rtOf w) (rsOf w) (immediateOf w))
  | 0b001100#6 => .ok (.andi (rtOf w) (rsOf w) (immediateOf w))
  | 0b001101#6 => .ok (.ori (rtOf w) (rsOf w) (immediateOf w))
  | 0b001110#6 => .ok (.xori (rtOf w) (rsOf w) (immediateOf w))
  | 0b001111#6 => whenZero (rsOf w == 0) w (.lui (rtOf w) (immediateOf w))
  | 0b100000#6 => .ok (.lb (rtOf w) (immediateOf w) (rsOf w))
  | 0b100001#6 => .ok (.lh (rtOf w) (immediateOf w) (rsOf w))
  | 0b100011#6 => .ok (.lw (rtOf w) (immediateOf w) (rsOf w))
  | 0b100100#6 => .ok (.lbu (rtOf w) (immediateOf w) (rsOf w))
  | 0b100101#6 => .ok (.lhu (rtOf w) (immediateOf w) (rsOf w))
  | 0b100111#6 => .ok (.lwu (rtOf w) (immediateOf w) (rsOf w))
  | 0b101000#6 => .ok (.sb (rtOf w) (immediateOf w) (rsOf w))
  | 0b101001#6 => .ok (.sh (rtOf w) (immediateOf w) (rsOf w))
  | 0b101011#6 => .ok (.sw (rtOf w) (immediateOf w) (rsOf w))
  | _ => .error (.unknownEncoding w)

/-! ### Words as bytes (R40, R41) -/

/-- Four bytes in address order, joined to a word: the byte at the lowest address is the most significant when
`bigEndian`, else the least significant (R40). -/
def wordOfBytes (bigEndian : Bool) (b0 b1 b2 b3 : Byte) : Word :=
  if bigEndian then b0 ++ b1 ++ b2 ++ b3 else b3 ++ b2 ++ b1 ++ b0

/-- Byte `k` in address order of an `n`-byte value: bits `8(n-1-k)+7 .. 8(n-1-k)` when `bigEndian`, else bits
`8k+7 .. 8k` (R47). -/
def byteOf {w : Nat} (bigEndian : Bool) (n : Nat) (v : BitVec w) (k : Nat) : Byte :=
  v.extractLsb' (8 * (if bigEndian then n - 1 - k else k)) 8

/-- The four bytes of an instruction word in address order (R242). -/
def bytesOfWord (bigEndian : Bool) (w : Word) : List Byte :=
  (List.range 4).map (byteOf bigEndian 4 w)

/-- Decode the instruction that the first four of `bytes`, in address order, hold; the bytes after it are handed back. -/
def decodeBytes (bigEndian : Bool) : List Byte → Except DecodeError (Instr × List Byte)
  | b0 :: b1 :: b2 :: b3 :: rest =>
    match decodeWord (wordOfBytes bigEndian b0 b1 b2 b3) with
    | .ok i => .ok (i, rest)
    | .error e => .error e
  | short => .error (.truncated short.length)

/-- The instruction the decoder reads from the word `w` of `nbits` bits, the bits above `nbits` being zero: laid out in
memory in the byte order of State.reset and decoded from there. -/
def decodeTableWord (nbits w : Nat) : Option Instr :=
  if w % 2 ^ nbits < 2 ^ 32 then
    match decodeBytes Params.default.bigEndianMem
        (bytesOfWord Params.default.bigEndianMem (BitVec.ofNat 32 (w % 2 ^ nbits))) with
    | .ok (i, _) => some i
    | .error _ => none
  else none

/-! ### Encoder -/

/-- Format REG3 (R72). -/
def encodeReg3 (rs rt rd : RegId) (function : BitVec 6) : Word :=
  0b000000#6 ++ rs ++ rt ++ rd ++ 0b00000#5 ++ function

/-- Format SHIFT (R73). -/
def encodeShift (rt rd : RegId) (sa : BitVec 5) (function : BitVec 6) : Word :=
  0b000000#6 ++ 0b00000#5 ++ rt ++ rd ++ sa ++ function

/-- Formats IMM, MEM and BR (R75, R76, R77): one layout, `rs` being `base` in a load or store and the 16 bits being an
immediate or an offset. -/
def encodeImm (opcode : BitVec 6) (rs rt : RegId) (immediate : BitVec 16) : Word :=
  opcode ++ rs ++ rt ++ immediate

/-- Format JMP (R78). -/
def encodeJump (opcode : BitVec 6) (index : BitVec 26) : Word := opcode ++ index

/-- The word of an instruction (R82). -/
def encode : Instr → Word
  | .add rd rs rt => encodeReg3 rs rt rd 0b100000#6
  | .addi rt rs immediate => encodeImm 0b001000#6 rs rt immediate
  | .addu rd rs rt => encodeReg3 rs rt rd 0b100001#6
  | .and rd rs rt => encodeReg3 rs rt rd 0b100100#6
  | .andi rt rs immediate => encodeImm 0b001100#6 rs rt immediate
  | .beq rs rt offset => encodeImm 0b000100#6 rs rt offset
  | .bne rs rt offset => encodeImm 0b000101#6 rs rt offset
  | .j index => encodeJump 0b000010#6 index
  | .jal index => encodeJump 0b000011#6 index
  | .jalr rd rs => encodeReg3 rs 0b00000#5 rd 0b001001#6
  | .jr rs => encodeReg3 rs 0b00000#5 0b00000#5 0b001000#6
  | .lb rt offset base => encodeImm 0b100000#6 base rt offset
  | .lbu rt offset base => encodeImm 0b100100#6 base rt offset
  | .lh rt offset base => encodeImm 0b100001#6 base rt offset
  | .lhu rt offset base => encodeImm 0b100101#6 base rt offset
  | .lui rt immediate => encodeImm 0b001111#6 0b00000#5 rt immediate
  | .lw rt offset base => encodeImm 0b100011#6 base rt offset
  | .lwu rt offset base => encodeImm 0b100111#6 base rt offset
  | .nor rd rs rt => encodeReg3 rs rt rd 0b100111#6
  | .or rd rs rt => encodeReg3 rs rt rd 0b100101#6
  | .ori rt rs immediate => encodeImm 0b001101#6 rs rt immediate
  | .sb rt offset base => encodeImm 0b101000#6 base rt offset
  | .sh rt offset base => encodeImm 0b101001#6 base rt offset
  | .sll rd rt sa => encodeShift rt rd sa 0b000000#6
  | .sllv rd rt rs => encodeReg3 rs rt rd 0b000100#6
  | .slt rd rs rt => encodeReg3 rs rt rd 0b101010#6
  | .slti rt rs immediate => encodeImm 0b001010#6 rs rt immediate
  | .sra rd rt sa => encodeShift rt rd sa 0b000011#6
  | .srav rd rt rs => encodeReg3 rs rt rd 0b000111#6
  | .srl rd rt sa => encodeShift rt rd sa 0b000010#6
  | .srlv rd rt rs => encodeReg3 rs rt rd 0b000110#6
  | .sub rd rs rt => encodeReg3 rs rt rd 0b100010#6
  | .subu rd rs rt => encodeReg3 rs rt rd 0b100011#6
  | .sw rt offset base => encodeImm 0b101011#6 base rt offset
  | .xor rd rs rt => encodeReg3 rs rt rd 0b100110#6
  | .xori rt rs immediate => encodeImm 0b001110#6 rs rt immediate

/-! ### The opcode table (R82) -/

/-- A row of spec/opcode_table.json: a word belongs to it when `w and mask = pattern` (R86). -/
structure OpcodeRow where
  mnemonic : String
  pattern : Word
  mask : Word
  deriving DecidableEq, Repr

/-- `w and mask = match` (R86). -/
abbrev OpcodeRow.matches (r : OpcodeRow) (w : Word) : Prop := w &&& r.mask = r.pattern

def specialRows : List OpcodeRow :=
  [⟨"ADD", 0x00000020#32, 0xFC0007FF#32⟩, ⟨"ADDU", 0x00000021#32, 0xFC0007FF#32⟩, ⟨"AND", 0x00000024#32, 0xFC0007FF#32⟩,
   ⟨"JALR", 0x00000009#32, 0xFC1F07FF#32⟩, ⟨"JR", 0x00000008#32, 0xFC1FFFFF#32⟩, ⟨"NOR", 0x00000027#32, 0xFC0007FF#32⟩,
   ⟨"OR", 0x00000025#32, 0xFC0007FF#32⟩, ⟨"SLL", 0x00000000#32, 0xFFE0003F#32⟩, ⟨"SLLV", 0x00000004#32, 0xFC0007FF#32⟩,
   ⟨"SLT", 0x0000002A#32, 0xFC0007FF#32⟩, ⟨"SRA", 0x00000003#32, 0xFFE0003F#32⟩, ⟨"SRAV", 0x00000007#32, 0xFC0007FF#32⟩,
   ⟨"SRL", 0x00000002#32, 0xFFE0003F#32⟩, ⟨"SRLV", 0x00000006#32, 0xFC0007FF#32⟩, ⟨"SUB", 0x00000022#32, 0xFC0007FF#32⟩,
   ⟨"SUBU", 0x00000023#32, 0xFC0007FF#32⟩, ⟨"XOR", 0x00000026#32, 0xFC0007FF#32⟩]

def immediateRows : List OpcodeRow :=
  [⟨"ADDI", 0x20000000#32, 0xFC000000#32⟩, ⟨"ANDI", 0x30000000#32, 0xFC000000#32⟩, ⟨"LUI", 0x3C000000#32, 0xFFE00000#32⟩,
   ⟨"ORI", 0x34000000#32, 0xFC000000#32⟩, ⟨"SLTI", 0x28000000#32, 0xFC000000#32⟩, ⟨"XORI", 0x38000000#32, 0xFC000000#32⟩,
   ⟨"BEQ", 0x10000000#32, 0xFC000000#32⟩, ⟨"BNE", 0x14000000#32, 0xFC000000#32⟩, ⟨"J", 0x08000000#32, 0xFC000000#32⟩,
   ⟨"JAL", 0x0C000000#32, 0xFC000000#32⟩]

def memoryRows : List OpcodeRow :=
  [⟨"LB", 0x80000000#32, 0xFC000000#32⟩, ⟨"LBU", 0x90000000#32, 0xFC000000#32⟩, ⟨"LH", 0x84000000#32, 0xFC000000#32⟩,
   ⟨"LHU", 0x94000000#32, 0xFC000000#32⟩, ⟨"LW", 0x8C000000#32, 0xFC000000#32⟩, ⟨"LWU", 0x9C000000#32, 0xFC000000#32⟩,
   ⟨"SB", 0xA0000000#32, 0xFC000000#32⟩, ⟨"SH", 0xA4000000#32, 0xFC000000#32⟩, ⟨"SW", 0xAC000000#32, 0xFC000000#32⟩]

/-- The 36 rows. The decoder does not read them: that it agrees with them is a statement (R83, R86, R87). -/
def opcodeRows : List OpcodeRow := specialRows ++ immediateRows ++ memoryRows

/-- The mnemonic of an instruction, as the table spells it. -/
def Instr.mnemonic : Instr → String
  | .add _ _ _ => "ADD" | .addi _ _ _ => "ADDI" | .addu _ _ _ => "ADDU" | .and _ _ _ => "AND" | .andi _ _ _ => "ANDI"
  | .beq _ _ _ => "BEQ" | .bne _ _ _ => "BNE" | .j _ => "J" | .jal _ => "JAL" | .jalr _ _ => "JALR" | .jr _ => "JR"
  | .lb _ _ _ => "LB" | .lbu _ _ _ => "LBU" | .lh _ _ _ => "LH" | .lhu _ _ _ => "LHU" | .lui _ _ => "LUI"
  | .lw _ _ _ => "LW" | .lwu _ _ _ => "LWU" | .nor _ _ _ => "NOR" | .or _ _ _ => "OR" | .ori _ _ _ => "ORI"
  | .sb _ _ _ => "SB" | .sh _ _ _ => "SH" | .sll _ _ _ => "SLL" | .sllv _ _ _ => "SLLV" | .slt _ _ _ => "SLT"
  | .slti _ _ _ => "SLTI" | .sra _ _ _ => "SRA" | .srav _ _ _ => "SRAV" | .srl _ _ _ => "SRL" | .srlv _ _ _ => "SRLV"
  | .sub _ _ _ => "SUB" | .subu _ _ _ => "SUBU" | .sw _ _ _ => "SW" | .xor _ _ _ => "XOR" | .xori _ _ _ => "XORI"

end Sys2Proof
end

