-- ==== Sys2Proof/Machine/State.lean ====
section
/-!
DEFINITION. The state of the machine as plain data (10_state.md), the reasons a step stops (60_exceptions.md R200, R210;
00_scope.md R17), and the state after reset (R34, R240).
-/

namespace Sys2Proof.Machine

/-! ### Memory -/

/-- What an address that memory does not list reads as. The spec leaves the contents of memory at launch open (R34):
DESIGN CHOICE 0x00, unsafe, entry 9. A claim over every state still meets every content. -/
def unlistedByte : Byte := 0x00#8

/-- `M` of R31: physical byte addresses with the bytes they hold. An address not listed holds `unlistedByte`. -/
structure Memory where
  cells : List Host.Cell
  deriving DecidableEq, Repr

/-- The canonical form: addresses strictly rising, no entry equal to what an unlisted address reads as. -/
abbrev Memory.wf (m : Memory) : Prop :=
  m.cells.Pairwise (fun c d => c.1 < d.1) ∧ ∀ c ∈ m.cells, c.2 ≠ unlistedByte

/-- Memory with nothing listed. -/
def Memory.empty : Memory := { cells := [] }

/-! ### State -/

/-- The state of R20 to R33, with the parameters of the run (R8). -/
structure State where
  /-- The parameters, fixed for a run (R8, R242). -/
  params : Params
  /-- `x[1]` to `x[31]`, at places 0 to 30 (R20); `x[0]` is hard-wired and has no cell (R21). -/
  gpr : Vector Word 31
  /-- The address of the instruction being executed (R23). -/
  pc : Word
  /-- The address of the instruction to execute after this one (R24). -/
  npc : Word
  /-- The instruction at `pc` is in a branch delay slot (R25). -/
  ds : Bool
  /-- The destination of a load executed by the previous instruction (R26). -/
  ld : Option RegId
  /-- Memory `M` (R31). -/
  mem : Memory
  /-- `W`, the physical byte addresses written by a store since reset (R33), strictly rising. -/
  written : List Nat
  deriving DecidableEq, Repr

/-! ### Why a step stops -/

/-- What an access was for: the `kind` of R200. -/
inductive AccessKind where
  | fetch
  | load
  | store
  deriving DecidableEq, Repr

/-- The seven exceptions the source names, with the information R200 attaches. -/
inductive Exception where
  /-- ADD, ADDI, SUB, on 32-bit two's complement overflow (R201). -/
  | integerOverflow
  /-- A misaligned data address (R202) or fetch address (R203), or a translation that answers so (R52). -/
  | addressError (kind : AccessKind) (vaddr : Word)
  /-- A translation that answers so (R204). -/
  | tlbRefill (kind : AccessKind) (vaddr : Word)
  /-- A translation that answers so (R204). -/
  | tlbInvalid (kind : AccessKind) (vaddr : Word)
  /-- A translation of a store that answers so (R204). -/
  | tlbModified (vaddr : Word)
  /-- An access to an address outside `PhysMem` (R205). -/
  | busError (kind : AccessKind) (vaddr : Word)
  /-- The LWU encoding (R206). -/
  | reservedInstruction
  deriving DecidableEq, Repr

/-- A step that raises has no next state (R210). -/
inductive Fault where
  /-- `Trap(cause, epc, bd, state)` of R210: raised by every exception of R200, with the restart address of R211 and the
  state at the start of the step. Safe: the spec says nothing of what the hardware does next, and the model stops
  (entry 10). -/
  | trap (cause : Exception) (epc : Word) (bd : Bool) (state : State)
  deriving DecidableEq, Repr

/-- A point at which the spec gives the machine no meaning (R17), with the state it was met in (R251). -/
inductive Refusal where
  /-- An instruction of the table that has no meaning in this model; no arm of `exec` answers so. Safe. -/
  | notModelled (mnemonic : String)
  /-- `refuse(UnknownEncoding)`: the fetched word matches no row (R87 (b)). Safe (entry 16). -/
  | unknownEncoding (state : State)
  /-- `refuse(ControlTransferInDelaySlot)`: a branch or jump met with `ds` = 1 (R25). Safe (entry 12). -/
  | controlTransferInDelaySlot (state : State)
  /-- `refuse(LoadDelayViolation)`: the instruction reads the destination of the load just before it (R246). Safe
  (entry 13). -/
  | loadDelayViolation (state : State)
  /-- `refuse(JALR_rs_equals_rd)`: a JALR whose two register specifiers are equal (R145). Safe (entry 15). -/
  | jalrRsEqualsRd (state : State)
  /-- `refuse(FetchAfterStore)`: a byte of the word to fetch was written by a store since reset (R48, R59). Safe
  (entry 14). -/
  | fetchAfterStore (state : State)
  deriving DecidableEq, Repr

/-! ### Launch and reset -/

/-- The launch of R242: parameters, register contents and memory are chosen, then reset (R34, R240) sets the rest. -/
def State.launch (p : Params) (registers : Vector Word 31) (memory : Memory) : State where
  params := p
  gpr := registers
  pc := p.resetPC
  npc := p.resetPC + 4#32
  ds := false
  ld := none
  mem := memory
  written := []

/-- The machine right after reset (R34, R240), for the parameters of `Params.default`. The spec leaves `x[1]` to `x[31]`
and memory open: DESIGN CHOICE all zero, unsafe, entries 8 and 9. -/
def State.reset : State := State.launch Params.default (Vector.replicate 31 0#32) Memory.empty

end Sys2Proof.Machine
end

