-- ==== Sys2Proof/Machine/Ops.lean ====
section
/-!
DEFINITION. The named operations every meaning is written over: general registers (R21), memory bytes and the written set
(R31, R33), address translation and PhysMem (R52, R54), MemRead, MemWrite and FetchWord (R46 to R48), taking an
exception (R210, R211), and the default sequencing of R24. There is no return from an exception (R212).
-/

namespace Sys2Proof.Machine

/-! ### General registers (R20, R21) -/

/-- `x[r]`: register 0 reads as zero. -/
def State.x (s : State) (r : RegId) : Word :=
  if h : r = 0#5 then 0#32 else s.gpr[r.toNat - 1]'(by have := r.isLt; omega)

/-- `x[r] <- v`: a write to register 0 is discarded. -/
def State.setX (s : State) (r : RegId) (v : Word) : State :=
  if h : r = 0#5 then s else { s with gpr := s.gpr.set (r.toNat - 1) v (by have := r.isLt; omega) }

/-! ### Bytes of memory (R31) and the written set (R33) -/

/-- The byte a list of cells holds at an address. -/
def readCells : List Host.Cell → Nat → Byte
  | [], _ => unlistedByte
  | c :: rest, a => if c.1 = a then c.2 else readCells rest a

/-- The cell of an address, or none for the byte an unlisted address reads as. -/
def cellOf (a : Nat) (v : Byte) : List Host.Cell := if v = unlistedByte then [] else [(a, v)]

/-- Cells in rising order with `v` at `a`, in canonical form. -/
def writeCells : List Host.Cell → Nat → Byte → List Host.Cell
  | [], a, v => cellOf a v
  | c :: rest, a, v =>
    if a < c.1 then cellOf a v ++ c :: rest
    else if a = c.1 then cellOf a v ++ rest
    else c :: writeCells rest a v

/-- `M[a]`. -/
def Memory.read (m : Memory) (a : Nat) : Byte := readCells m.cells a

/-- `M[a] <- v`. -/
def Memory.write (m : Memory) (a : Nat) (v : Byte) : Memory := { cells := writeCells m.cells a v }

/-- The bytes written at `a`, `a + 1`, and so on. -/
def Memory.writeBytes (m : Memory) (a : Nat) : List Byte → Memory
  | [] => m
  | b :: rest => (m.write a b).writeBytes (a + 1) rest

/-- `W + {a}`, in strictly rising order. -/
def insertAddress (a : Nat) : List Nat → List Nat
  | [] => [a]
  | b :: rest => if a < b then a :: b :: rest else if a = b then b :: rest else b :: insertAddress a rest

/-- `W + {p, ..., p+n-1}` (R47). -/
def insertAddresses (p : Nat) : Nat → List Nat → List Nat
  | 0, ws => ws
  | n + 1, ws => insertAddresses (p + 1) n (insertAddress p ws)

/-! ### Access sizes and byte order (R40, R42, R50) -/

/-- BYTE, HALFWORD and WORD. -/
inductive AccessSize where
  | byte
  | half
  | word
  deriving DecidableEq, Repr

/-- The `n` of MemRead and MemWrite. -/
abbrev AccessSize.bytes : AccessSize → Nat
  | .byte => 1
  | .half => 2
  | .word => 4

/-- `8n`. -/
abbrev AccessSize.bits : AccessSize → Nat
  | .byte => 8
  | .half => 16
  | .word => 32

/-- Naturally aligned: a multiple of the access size (R42; the two low bits of `v` for a word, the low bit for a
halfword, no requirement for a byte). -/
def aligned (n : AccessSize) (v : Word) : Bool := v.toNat % n.bytes == 0

/-- The value of `n` bytes, `b k` being the byte `k` places above the lowest address (R40). -/
def assemble (bigEndian : Bool) (b : Nat → Byte) : (n : AccessSize) → BitVec n.bits
  | .byte => b 0
  | .half => if bigEndian then b 0 ++ b 1 else b 1 ++ b 0
  | .word => wordOfBytes bigEndian (b 0) (b 1) (b 2) (b 3)

/-- `BigEndianCPU` = `BigEndianMem xor ReverseEndian` (R7). -/
def State.bigEndianCPU (s : State) : Bool := s.params.bigEndianMem ^^ reverseEndian

/-! ### Translation and the addresses that exist (R52, R54) -/

/-- The `kind` of an exception of an access (R200). -/
def accessKind : IorD → LorS → AccessKind
  | .instruction, _ => .fetch
  | .data, .load => .load
  | .data, .store => .store

/-- A row decides an access when it covers its address and its kind. TLB Modified is for stores only (R52 (c)): a row that
says so is passed over by a load or a fetch. -/
def rowCovers (r : TranslationRow) (v : Word) (iord : IorD) (lors : LorS) : Bool :=
  r.iord == iord && r.lors == lors && r.first.toNat ≤ v.toNat && v.toNat ≤ r.last.toNat
    && (r.mapping != .tlbModified || lors == .store)

/-- The physical address in the word numbered `word` (within PSIZE bits), with the two low bits of `v` (R52 (b)). -/
def physicalAddress (psize : Nat) (word : Nat) (v : Word) : Nat :=
  4 * (word % 2 ^ (psize - 2)) + v.toNat % 4

/-- What a row answers for an address it covers. -/
def resolveMapping (m : Mapping) (psize : Nat) (first v : Word) (iord : IorD) (lors : LorS) : Except Exception Nat :=
  match m with
  | .physical word => .ok (physicalAddress psize (word + (v.toNat / 4 - first.toNat / 4)) v)
  | .tlbRefill => .error (.tlbRefill (accessKind iord lors) v)
  | .tlbInvalid => .error (.tlbInvalid (accessKind iord lors) v)
  | .tlbModified => .error (.tlbModified v)
  | .addressError => .error (.addressError (accessKind iord lors) v)

/-- `AddressTranslation(v, iord, lors)` (R52): the first row that covers the access, else the identity. -/
def addressTranslation (t : AddressTranslation) (v : Word) (iord : IorD) (lors : LorS) : Except Exception Nat :=
  match t.rows.find? (fun r => rowCovers r v iord lors) with
  | some r => resolveMapping r.mapping t.psize r.first v iord lors
  | none => .ok (physicalAddress t.psize (v.toNat / 4) v)

/-- `a` is in `PhysMem` (R54). -/
def addressExists (p : Params) (a : Nat) : Bool := p.physMem.any (fun r => r.first ≤ a && a ≤ r.last)

/-- `{a, ..., a+n-1}` is a subset of `PhysMem`. -/
def addressesExist (p : Params) (a n : Nat) : Bool := (List.range n).all (fun k => addressExists p (a + k))

/-- Where an access lands, or the exception it raises: the alignment test on the virtual address, then the translation,
then the existence of every byte, in that order (R42, R46, R47, R48, R208). -/
def locate (s : State) (v : Word) (n : AccessSize) (iord : IorD) (lors : LorS) : Except Exception Nat :=
  if aligned n v then
    match addressTranslation s.params.translation v iord lors with
    | .error e => .error e
    | .ok p => if addressesExist s.params p n.bytes then .ok p else .error (.busError (accessKind iord lors) v)
  else .error (.addressError (accessKind iord lors) v)

/-! ### MemRead, MemWrite, FetchWord (R46, R47, R48) -/

/-- The `n` bytes at physical address `p`, in the byte order of the run. -/
def State.valueAt (s : State) (p : Nat) (n : AccessSize) : BitVec n.bits :=
  assemble s.bigEndianCPU (fun k => s.mem.read (p + k)) n

/-- `MemRead(v, n)` (R46). -/
def memRead (s : State) (v : Word) (n : AccessSize) : Except Exception (BitVec n.bits) :=
  match locate s v n .data .load with
  | .error e => .error e
  | .ok p => .ok (s.valueAt p n)

/-- The bytes of a store, in address order (R47). -/
def storeBytes (bigEndian : Bool) (n : AccessSize) (d : BitVec n.bits) : List Byte :=
  (List.range n.bytes).map (byteOf bigEndian n.bytes d)

/-- The `n` bytes of `d` stored at physical address `p`, and their addresses added to `W` (R47). -/
def State.storeAt (s : State) (p : Nat) (n : AccessSize) (d : BitVec n.bits) : State :=
  { s with
    mem := s.mem.writeBytes p (storeBytes s.bigEndianCPU n d)
    written := insertAddresses p n.bytes s.written }

/-- `MemWrite(v, n, d)` (R47): all `n` bytes are written, or an exception is raised and none is. -/
def memWrite (s : State) (v : Word) (n : AccessSize) (d : BitVec n.bits) : Except Exception State :=
  match locate s v n .data .store with
  | .error e => .error e
  | .ok p => .ok (s.storeAt p n d)

/-! ### Taking an exception (R210, R211) -/

/-- `epc` of the trap outcome (R211): the branch before it when the raising instruction is in a delay slot. -/
def State.restartAddress (s : State) : Word := if s.ds then s.pc - 4#32 else s.pc

/-- `raise e` at a step that began in `s` (R16, R210, R211): the one place an exception is taken. The outcome is terminal
and carries the state at the start of the step. -/
def raise {α : Type} (e : Exception) (s : State) : Host.Outcome α Fault Refusal :=
  .fault (.trap e s.restartAddress s.ds s)

/-- Steps 2 and 3 of R24: the instruction word at `pc` (R43, R48), or the exception of the fetch, or the refusal of a word
a store has written to (R59). -/
def fetchWord (s : State) : Host.Outcome Word Fault Refusal :=
  match locate s s.pc .word .instruction .load with
  | .error e => raise e s
  | .ok p =>
    if (List.range 4).any (fun k => s.written.contains (p + k)) then .refused (.fetchAfterStore s)
    else .next (s.valueAt p .word)

/-! ### Sequencing (steps 6, 8 and 9 of R24) -/

/-- The end of a step whose instruction is neither a control transfer nor a load. -/
def State.advance (s : State) : State := { s with pc := s.npc, npc := s.npc + 4#32, ds := false, ld := none }

/-- The end of a step whose instruction loads register `rt`. -/
def State.advanceLoad (s : State) (rt : RegId) : State :=
  { s with pc := s.npc, npc := s.npc + 4#32, ds := false, ld := if rt = 0#5 then none else some rt }

/-- The end of a step whose instruction is a control transfer, taken to `target` or (`none`) not taken. -/
def State.advanceTransfer (s : State) (target : Option Word) : State :=
  { s with pc := s.npc, npc := target.getD (s.npc + 4#32), ds := true, ld := none }

/-- The end of a step that writes `v` to register `r` and does nothing else. -/
def writeResult (r : RegId) (v : Word) (s : State) : Host.Outcome State Fault Refusal :=
  .next (s.setX r v).advance

end Sys2Proof.Machine
end

