-- ==== Sys2Proof/Machine/Operands.lean ====
section
/-!
DEFINITION. How each operand is made from the fields of an instruction (R79), and which registers an instruction reads and
writes (R22).
-/

namespace Sys2Proof.Machine

/-! ### Immediates and addresses (R79) -/

/-- `sext_32(immediate)`: ADDI, SLTI, and the byte offset of loads and stores. -/
def signedImmediate (immediate : BitVec 16) : Word := immediate.signExtend 32

/-- `zext_32(immediate)`: ANDI, ORI, XORI. -/
def unsignedImmediate (immediate : BitVec 16) : Word := immediate.zeroExtend 32

/-- `immediate || rep(0,16)`: LUI. -/
def upperImmediate (immediate : BitVec 16) : Word := immediate ++ 0#16

/-- `sext_32(offset) + x[base]`, modulo 2^32 (R166). -/
def effectiveAddress (offset : BitVec 16) (base : RegId) (s : State) : Word := signedImmediate offset + s.x base

/-- The target of BEQ and BNE: `(pc + 4) + sext_32(offset || 00)` (R140). -/
def branchTarget (offset : BitVec 16) (s : State) : Word := (s.pc + 4#32) + (offset ++ 0b00#2).signExtend 32

/-- The target of J and JAL: `(pc + 4)[31:28] || instr_index || 00` (R142, C4). -/
def jumpTarget (index : BitVec 26) (s : State) : Word := (s.pc + 4#32).extractLsb' 28 4 ++ index ++ 0b00#2

/-- The return link of JAL and JALR: `pc + 8` (R147). -/
def linkAddress (s : State) : Word := s.pc + 8#32

/-- The count of SLL, SRL, SRA (R196). -/
def constantCount (sa : BitVec 5) : Nat := sa.toNat

/-- The count of SLLV, SRLV, SRAV: `x[rs][4:0]` (R196). -/
def registerCount (rs : RegId) (s : State) : Nat := ((s.x rs).extractLsb' 0 5).toNat

/-! ### Read and write sets (R22) -/

/-- The general registers an instruction reads. LWU raises Reserved Instruction whatever its fields and reads none
(R165). -/
def reads : Instr → List RegId
  | .add _ rs rt | .addu _ rs rt | .sub _ rs rt | .subu _ rs rt | .and _ rs rt | .or _ rs rt | .xor _ rs rt
  | .nor _ rs rt | .slt _ rs rt => [rs, rt]
  | .sllv _ rt rs | .srlv _ rt rs | .srav _ rt rs => [rt, rs]
  | .sll _ rt _ | .srl _ rt _ | .sra _ rt _ => [rt]
  | .addi _ rs _ | .andi _ rs _ | .ori _ rs _ | .xori _ rs _ | .slti _ rs _ => [rs]
  | .lui _ _ => []
  | .lb _ _ base | .lbu _ _ base | .lh _ _ base | .lhu _ _ base | .lw _ _ base => [base]
  | .sb rt _ base | .sh rt _ base | .sw rt _ base => [base, rt]
  | .beq rs rt _ | .bne rs rt _ => [rs, rt]
  | .j _ | .jal _ => []
  | .jr rs | .jalr _ rs => [rs]
  | .lwu _ _ _ => []

/-- The general register an instruction writes; a destination of 0 is written to no effect (R21, R88). -/
def writes : Instr → Option RegId
  | .add rd _ _ | .addu rd _ _ | .sub rd _ _ | .subu rd _ _ | .and rd _ _ | .or rd _ _ | .xor rd _ _
  | .nor rd _ _ | .slt rd _ _ => some rd
  | .sllv rd _ _ | .srlv rd _ _ | .srav rd _ _ => some rd
  | .sll rd _ _ | .srl rd _ _ | .sra rd _ _ => some rd
  | .addi rt _ _ | .andi rt _ _ | .ori rt _ _ | .xori rt _ _ | .slti rt _ _ => some rt
  | .lui rt _ => some rt
  | .lb rt _ _ | .lbu rt _ _ | .lh rt _ _ | .lhu rt _ _ | .lw rt _ _ => some rt
  | .sb _ _ _ | .sh _ _ _ | .sw _ _ _ => none
  | .beq _ _ _ | .bne _ _ _ => none
  | .j _ => none
  | .jal _ => some 31#5
  | .jr _ => none
  | .jalr rd _ => some rd
  | .lwu _ _ _ => none

/-- One of BEQ, BNE, J, JAL, JALR, JR, taken or not (R24). -/
def isControlTransfer : Instr → Bool
  | .beq _ _ _ | .bne _ _ _ | .j _ | .jal _ | .jalr _ _ | .jr _ => true
  | .add _ _ _ | .addi _ _ _ | .addu _ _ _ | .and _ _ _ | .andi _ _ _ | .lb _ _ _ | .lbu _ _ _ | .lh _ _ _
  | .lhu _ _ _ | .lui _ _ | .lw _ _ _ | .lwu _ _ _ | .nor _ _ _ | .or _ _ _ | .ori _ _ _ | .sb _ _ _ | .sh _ _ _
  | .sll _ _ _ | .sllv _ _ _ | .slt _ _ _ | .slti _ _ _ | .sra _ _ _ | .srav _ _ _ | .srl _ _ _ | .srlv _ _ _
  | .sub _ _ _ | .subu _ _ _ | .sw _ _ _ | .xor _ _ _ | .xori _ _ _ => false

end Sys2Proof.Machine
end

