-- ==== Sys2Proof/Machine/Arithmetic.lean ====
section
/-!
DEFINITION. ADD, ADDI, ADDU, SUB, SUBU, SLT, SLTI (40_arithmetic.md).
-/

namespace Sys2Proof.Machine

/-- Write `v` to `r`, or raise Integer Overflow and write nothing (R201). -/
def writeUnlessOverflow (overflow : Bool) (r : RegId) (v : Word) (s : State) : Host.Outcome State Fault Refusal :=
  if overflow then raise .integerOverflow s else writeResult r v s

/-- R101. -/
def execAdd (rd rs rt : RegId) (s : State) : Host.Outcome State Fault Refusal :=
  writeUnlessOverflow (ovfAdd (s.x rs) (s.x rt)) rd (s.x rs + s.x rt) s

/-- R102. -/
def execAddi (rt rs : RegId) (immediate : BitVec 16) (s : State) : Host.Outcome State Fault Refusal :=
  writeUnlessOverflow (ovfAdd (s.x rs) (signedImmediate immediate)) rt (s.x rs + signedImmediate immediate) s

/-- R103. -/
def execAddu (rd rs rt : RegId) (s : State) : Host.Outcome State Fault Refusal :=
  writeResult rd (s.x rs + s.x rt) s

/-- R104. -/
def execSub (rd rs rt : RegId) (s : State) : Host.Outcome State Fault Refusal :=
  writeUnlessOverflow (ovfSub (s.x rs) (s.x rt)) rd (s.x rs - s.x rt) s

/-- R105; the destination is rd (C3). -/
def execSubu (rd rs rt : RegId) (s : State) : Host.Outcome State Fault Refusal :=
  writeResult rd (s.x rs - s.x rt) s

/-- R106. -/
def execSlt (rd rs rt : RegId) (s : State) : Host.Outcome State Fault Refusal :=
  writeResult rd (signedLess (s.x rs) (s.x rt)) s

/-- R107; the destination is rt (C2). -/
def execSlti (rt rs : RegId) (immediate : BitVec 16) (s : State) : Host.Outcome State Fault Refusal :=
  writeResult rt (signedLess (s.x rs) (signedImmediate immediate)) s

end Sys2Proof.Machine
end

