-- ==== Sys2Proof/Machine/Branch.lean ====
section
/-!
DEFINITION. BEQ, BNE, J, JAL, JALR, JR (42_branch_jump.md). The transfer is delayed by one instruction (R146): the target
goes to `npc`.
-/

namespace Sys2Proof.Machine

/-- Branch to `branchTarget` when `condition` holds, after the delay slot. -/
def branchWhen (condition : Bool) (offset : BitVec 16) (s : State) : Host.Outcome State Fault Refusal :=
  .next (s.advanceTransfer (if condition then some (branchTarget offset s) else none))

/-- R140. -/
def execBeq (rs rt : RegId) (offset : BitVec 16) (s : State) : Host.Outcome State Fault Refusal :=
  branchWhen (s.x rs == s.x rt) offset s

/-- R141. -/
def execBne (rs rt : RegId) (offset : BitVec 16) (s : State) : Host.Outcome State Fault Refusal :=
  branchWhen (s.x rs != s.x rt) offset s

/-- R142. -/
def execJ (index : BitVec 26) (s : State) : Host.Outcome State Fault Refusal :=
  .next (s.advanceTransfer (some (jumpTarget index s)))

/-- R143. -/
def execJal (index : BitVec 26) (s : State) : Host.Outcome State Fault Refusal :=
  .next ((s.setX 31#5 (linkAddress s)).advanceTransfer (some (jumpTarget index s)))

/-- R145: refused when the two specifiers are equal; `x[rs]` is read before the link is written. -/
def execJalr (rd rs : RegId) (s : State) : Host.Outcome State Fault Refusal :=
  if rs = rd then .refused (.jalrRsEqualsRd s)
  else .next ((s.setX rd (linkAddress s)).advanceTransfer (some (s.x rs)))

/-- R144: the alignment of the target is tested when it is fetched, not here (R43). -/
def execJr (rs : RegId) (s : State) : Host.Outcome State Fault Refusal :=
  .next (s.advanceTransfer (some (s.x rs)))

end Sys2Proof.Machine
end

