-- ==== Sys2Proof/Machine/Load.lean ====
section
/-!
DEFINITION. LB, LBU, LH, LHU, LW, and LWU, whose words this hardware answers with Reserved Instruction (43_load.md).
-/

namespace Sys2Proof.Machine

/-- Load `n` bytes from `sext_32(offset) + x[base]`, extend them to a word by `extend`, and write it to `x[rt]`; if the
access raises, nothing is written (R166, R167). -/
def loadWith (n : AccessSize) (extend : BitVec n.bits → Word) (rt : RegId) (offset : BitVec 16) (base : RegId)
    (s : State) : Host.Outcome State Fault Refusal :=
  match memRead s (effectiveAddress offset base s) n with
  | .error e => raise e s
  | .ok v => .next ((s.setX rt (extend v)).advanceLoad rt)

/-- R160. -/
def execLb (rt : RegId) (offset : BitVec 16) (base : RegId) (s : State) : Host.Outcome State Fault Refusal :=
  loadWith .byte (BitVec.signExtend 32) rt offset base s

/-- R161. -/
def execLbu (rt : RegId) (offset : BitVec 16) (base : RegId) (s : State) : Host.Outcome State Fault Refusal :=
  loadWith .byte (BitVec.zeroExtend 32) rt offset base s

/-- R162. -/
def execLh (rt : RegId) (offset : BitVec 16) (base : RegId) (s : State) : Host.Outcome State Fault Refusal :=
  loadWith .half (BitVec.signExtend 32) rt offset base s

/-- R163. -/
def execLhu (rt : RegId) (offset : BitVec 16) (base : RegId) (s : State) : Host.Outcome State Fault Refusal :=
  loadWith .half (BitVec.zeroExtend 32) rt offset base s

/-- R164: the word fills the register. -/
def execLw (rt : RegId) (offset : BitVec 16) (base : RegId) (s : State) : Host.Outcome State Fault Refusal :=
  loadWith .word (fun v => v) rt offset base s

/-- R165: Reserved Instruction, whatever the fields; no address is formed. -/
def execLwu (_rt : RegId) (_offset : BitVec 16) (_base : RegId) (s : State) : Host.Outcome State Fault Refusal :=
  raise .reservedInstruction s

end Sys2Proof.Machine
end

