-- ==== Sys2Proof/Machine/Logical.lean ====
section
/-!
DEFINITION. AND, ANDI, LUI, NOR, OR, ORI, XOR, XORI (41_logical.md).
-/

namespace Sys2Proof.Machine

/-- R120. -/
def execAnd (rd rs rt : RegId) (s : State) : Host.Outcome State Fault Refusal :=
  writeResult rd (s.x rs &&& s.x rt) s

/-- R121. -/
def execAndi (rt rs : RegId) (immediate : BitVec 16) (s : State) : Host.Outcome State Fault Refusal :=
  writeResult rt (unsignedImmediate immediate &&& s.x rs) s

/-- R122. -/
def execLui (rt : RegId) (immediate : BitVec 16) (s : State) : Host.Outcome State Fault Refusal :=
  writeResult rt (upperImmediate immediate) s

/-- R123. -/
def execNor (rd rs rt : RegId) (s : State) : Host.Outcome State Fault Refusal :=
  writeResult rd (~~~(s.x rs ||| s.x rt)) s

/-- R124. -/
def execOr (rd rs rt : RegId) (s : State) : Host.Outcome State Fault Refusal :=
  writeResult rd (s.x rs ||| s.x rt) s

/-- R125; the destination is rt (C1). -/
def execOri (rt rs : RegId) (immediate : BitVec 16) (s : State) : Host.Outcome State Fault Refusal :=
  writeResult rt (unsignedImmediate immediate ||| s.x rs) s

/-- R126. -/
def execXor (rd rs rt : RegId) (s : State) : Host.Outcome State Fault Refusal :=
  writeResult rd (s.x rs ^^^ s.x rt) s

/-- R127. -/
def execXori (rt rs : RegId) (immediate : BitVec 16) (s : State) : Host.Outcome State Fault Refusal :=
  writeResult rt (s.x rs ^^^ unsignedImmediate immediate) s

end Sys2Proof.Machine
end

