-- ==== Sys2Proof/Machine/Shift.lean ====
section
/-!
DEFINITION. SLL, SLLV, SRA, SRAV, SRL, SRLV (45_shift.md). The count is in 0 .. 31 in all six (R196).
-/

namespace Sys2Proof.Machine

/-- R190. -/
def execSll (rd rt : RegId) (sa : BitVec 5) (s : State) : Host.Outcome State Fault Refusal :=
  writeResult rd (s.x rt <<< constantCount sa) s

/-- R191. -/
def execSllv (rd rt rs : RegId) (s : State) : Host.Outcome State Fault Refusal :=
  writeResult rd (s.x rt <<< registerCount rs s) s

/-- R192. -/
def execSra (rd rt : RegId) (sa : BitVec 5) (s : State) : Host.Outcome State Fault Refusal :=
  writeResult rd ((s.x rt).sshiftRight (constantCount sa)) s

/-- R193. -/
def execSrav (rd rt rs : RegId) (s : State) : Host.Outcome State Fault Refusal :=
  writeResult rd ((s.x rt).sshiftRight (registerCount rs s)) s

/-- R194. -/
def execSrl (rd rt : RegId) (sa : BitVec 5) (s : State) : Host.Outcome State Fault Refusal :=
  writeResult rd (s.x rt >>> constantCount sa) s

/-- R195. -/
def execSrlv (rd rt rs : RegId) (s : State) : Host.Outcome State Fault Refusal :=
  writeResult rd (s.x rt >>> registerCount rs s) s

end Sys2Proof.Machine
end

