-- ==== Sys2Proof/Machine/Store.lean ====
section
/-!
DEFINITION. SB, SH, SW (44_store.md).
-/

namespace Sys2Proof.Machine

/-- Store the `n` low bytes of `x[rt]` at `sext_32(offset) + x[base]`; if the access raises, nothing is written
(R166, R183). -/
def storeWith (n : AccessSize) (rt : RegId) (offset : BitVec 16) (base : RegId) (s : State) :
    Host.Outcome State Fault Refusal :=
  match memWrite s (effectiveAddress offset base s) n ((s.x rt).extractLsb' 0 n.bits) with
  | .error e => raise e s
  | .ok s' => .next s'.advance

/-- R180. -/
def execSb (rt : RegId) (offset : BitVec 16) (base : RegId) (s : State) : Host.Outcome State Fault Refusal :=
  storeWith .byte rt offset base s

/-- R181. -/
def execSh (rt : RegId) (offset : BitVec 16) (base : RegId) (s : State) : Host.Outcome State Fault Refusal :=
  storeWith .half rt offset base s

/-- R182. -/
def execSw (rt : RegId) (offset : BitVec 16) (base : RegId) (s : State) : Host.Outcome State Fault Refusal :=
  storeWith .word rt offset base s

end Sys2Proof.Machine
end

