-- ==== Sys2Proof/Machine/Hazards.lean ====
section
/-!
DEFINITION. The sequences a step refuses before it runs the instruction (step 5 of R24; R25, R246; the list is R245).
-/

namespace Sys2Proof.Machine

/-- The refusal of step 5 of R24, if any: a control transfer in a delay slot (R25), then a read of the destination of the
load just before (R246). -/
def hazard (i : Instr) (s : State) : Option Refusal :=
  if s.ds && isControlTransfer i then some (.controlTransferInDelaySlot s)
  else if s.ld.any (fun r => (reads i).contains r) then some (.loadDelayViolation s)
  else none

end Sys2Proof.Machine
end

