-- ==== Sys2Proof/Machine/Sequence.lean ====
section
/-!
DEFINITION. What a step does with the word it fetched (steps 4 to 9 of R24), the end of a run (R250), and the load of one
instruction where the next step fetches (R242).
-/

namespace Sys2Proof.Machine

/-- Steps 4 to 9 of R24 for the fetched word: decode it (R86, R87), refuse a hazard (step 5), run it. -/
def runWord (w : Word) (s : State) : Host.Outcome State Fault Refusal :=
  match decodeWord w with
  | .error _ => .refused (.unknownEncoding s)
  | .ok i =>
    match hazard i s with
    | some r => .refused r
    | none => exec i s

/-- The run is over (R250): the step begins with `pc` = `EndPC` and `ds` = 0. -/
def State.done (s : State) : Bool := s.params.endPC == some s.pc && !s.ds

/-- The word's four bytes at physical address `p`, in the byte order of `BigEndianMem` (R242), as the launch places
them: they are not written by a store, so `W` does not hold their addresses. -/
def State.placeWord (s : State) (p : Nat) (w : Word) : State :=
  { s with
    mem := s.mem.writeBytes p (bytesOfWord s.params.bigEndianMem w)
    written := s.written.filter (fun a => a < p || p + 4 ≤ a) }

/-- `placeWord` at the place `pc` is fetched from; where `pc` cannot be fetched (misaligned, or a translation or bus
exception) there is no such place and nothing changes. -/
def State.placeAtPc (s : State) (w : Word) : State :=
  match locate s s.pc .word .instruction .load with
  | .ok p => s.placeWord p w
  | .error _ => s

end Sys2Proof.Machine
end

