-- ==== Sys2Proof/Machine/Step.lean ====
section
/-!
DEFINITION. One step of the machine (R24).
-/

namespace Sys2Proof.Machine

/-- One step (R24). A run that is over (step 1, R250) stays where it is: `Done(state)` of R251 is a state that is `done`,
and every further step answers it again (entry 7). Steps 2 and 3 are `fetchWord`, steps 4 to 9 `runWord`. -/
def step (s : State) : Host.Outcome State Fault Refusal :=
  if s.done then .next s
  else
    match fetchWord s with
    | .fault f => .fault f
    | .refused r => .refused r
    | .next w => runWord w s

/-- `s` with the instruction of bits `w` (the bits from `nbits` up being zero) where the next step fetches, as the launch
of R242 places a program (entry 22). -/
def State.withFetchWord (s : State) (nbits w : Nat) : State := s.placeAtPc (BitVec.ofNat 32 (w % 2 ^ nbits))

end Sys2Proof.Machine
end

