-- ==== Sys2Proof/Safety.lean ====
section
/-!
DEFINITION. What claims are stated in: the invariant every step keeps, and names for what a step leaves and changes.
-/

namespace Sys2Proof.Machine

/-- What holds at every launch over sound memory and is kept by every step: memory and the written set in canonical form
and inside `PhysMem` (R31, R33, R54), the sequencing of R25, an aligned delay slot, and a load mark that never names
register 0 (R26). -/
structure State.Inv (s : State) : Prop where
  memoryCanonical : s.mem.wf
  memoryExists : ∀ c ∈ s.mem.cells, addressExists s.params c.1 = true
  writtenRising : s.written.Pairwise (· < ·)
  writtenExists : ∀ a ∈ s.written, addressExists s.params a = true
  sequential : s.ds = false → s.npc = s.pc + 4#32
  delaySlotAligned : s.ds = true → s.pc.toNat % 4 = 0
  loadMark : s.ld ≠ some 0#5

/-! ### What a next state has -/

/-- `v` in register `rd`, zero in register 0, every other register as before (R20, R21). -/
def RegisterSet (s t : State) (rd : RegId) (v : Word) : Prop :=
  ∀ r, t.x r = if r = 0#5 then 0#32 else if r = rd then v else s.x r

/-- Every general register as before. -/
def RegistersKept (s t : State) : Prop := ∀ r, t.x r = s.x r

/-- Every byte of memory, the written set and the parameters as before. -/
def MemoryKept (s t : State) : Prop :=
  (∀ a, t.mem.read a = s.mem.read a) ∧ t.written = s.written ∧ t.params = s.params

/-- Steps 8 and 9 of R24 after an instruction that is no control transfer, with the load mark `mark`. -/
def SequentialEnd (s t : State) (mark : Option RegId) : Prop :=
  t.pc = s.npc ∧ t.npc = s.npc + 4#32 ∧ t.ds = false ∧ t.ld = mark

/-- Steps 8 and 9 of R24 after a control transfer that leaves `target` in `npc`. -/
def TransferEnd (s t : State) (target : Word) : Prop :=
  t.pc = s.npc ∧ t.npc = target ∧ t.ds = true ∧ t.ld = none

/-- The whole next state of an instruction that writes `v` to `rd` and does nothing else. -/
def Yields (i : Instr) (s : State) (rd : RegId) (v : Word) : Prop :=
  ∃ t, exec i s = .next t ∧ RegisterSet s t rd v ∧ MemoryKept s t ∧ SequentialEnd s t none

/-- `Trap(e, epc, bd, s)` with `epc` and `bd` as R211 gives them. -/
def trapOutcome (e : Exception) (s : State) : Host.Outcome State Fault Refusal :=
  .fault (.trap e (if s.ds = true then s.pc - 4#32 else s.pc) s.ds s)

/-- The two answers of an instruction that traps on overflow, `v` being the exact signed result: `v` in `rd` when it fits
in 32 bits, else Integer Overflow with nothing written (R101, R102, R104, R201). -/
def YieldsOrOverflows (i : Instr) (s : State) (rd : RegId) (v : Int) : Prop :=
  (-2 ^ 31 ≤ v ∧ v ≤ 2 ^ 31 - 1 → Yields i s rd (BitVec.ofInt 32 v)) ∧
  (v < -2 ^ 31 ∨ 2 ^ 31 - 1 < v → exec i s = trapOutcome .integerOverflow s)

/-- The instruction is one of the three stores (R31: the only writers of memory). -/
def isStore : Instr → Bool
  | .sb _ _ _ | .sh _ _ _ | .sw _ _ _ => true
  | .add _ _ _ | .addi _ _ _ | .addu _ _ _ | .and _ _ _ | .andi _ _ _ | .beq _ _ _ | .bne _ _ _ | .j _ | .jal _
  | .jalr _ _ | .jr _ | .lb _ _ _ | .lbu _ _ _ | .lh _ _ _ | .lhu _ _ _ | .lui _ _ | .lw _ _ _ | .lwu _ _ _
  | .nor _ _ _ | .or _ _ _ | .ori _ _ _ | .sll _ _ _ | .sllv _ _ _ | .slt _ _ _ | .slti _ _ _ | .sra _ _ _
  | .srav _ _ _ | .srl _ _ _ | .srlv _ _ _ | .sub _ _ _ | .subu _ _ _ | .xor _ _ _ | .xori _ _ _ => false

/-- The instruction is one of the five loads of this hardware (R26); LWU is none (R165). -/
def isLoad : Instr → Bool
  | .lb _ _ _ | .lbu _ _ _ | .lh _ _ _ | .lhu _ _ _ | .lw _ _ _ => true
  | .add _ _ _ | .addi _ _ _ | .addu _ _ _ | .and _ _ _ | .andi _ _ _ | .beq _ _ _ | .bne _ _ _ | .j _ | .jal _
  | .jalr _ _ | .jr _ | .lui _ _ | .lwu _ _ _ | .nor _ _ _ | .or _ _ _ | .ori _ _ _ | .sb _ _ _ | .sh _ _ _
  | .sll _ _ _ | .sllv _ _ _ | .slt _ _ _ | .slti _ _ _ | .sra _ _ _ | .srav _ _ _ | .srl _ _ _ | .srlv _ _ _
  | .sub _ _ _ | .subu _ _ _ | .sw _ _ _ | .xor _ _ _ | .xori _ _ _ => false

/-! ### Values in memory, and what a load or a store answers -/

/-- The halfword at physical address `p` in the byte order of the run (R40). -/
def halfAt (s : State) (p : Nat) : BitVec 16 :=
  if s.params.bigEndianMem = true then s.mem.read p ++ s.mem.read (p + 1) else s.mem.read (p + 1) ++ s.mem.read p

/-- The word at physical address `p` in the byte order of the run (R40). -/
def wordAt (s : State) (p : Nat) : Word :=
  if s.params.bigEndianMem = true then
    s.mem.read p ++ s.mem.read (p + 1) ++ s.mem.read (p + 2) ++ s.mem.read (p + 3)
  else s.mem.read (p + 3) ++ s.mem.read (p + 2) ++ s.mem.read (p + 1) ++ s.mem.read p

/-- Byte `k` in address order of the `n` low bytes of a word, in the byte order of the run (R47). -/
def storedByte (s : State) (n : Nat) (d : Word) (k : Nat) : Byte :=
  d.extractLsb' (8 * (if s.params.bigEndianMem = true then n - 1 - k else k)) 8

/-- The answers of a load of `n` bytes whose effective address `v` is aligned, `value p` being what it loads into `rt` from
physical address `p`: what the translation raises, else Bus Error when a byte does not exist, else the next state
(R46, R167). -/
def LoadLands (i : Instr) (s : State) (v : Word) (n : Nat) (rt : RegId) (value : Nat → Word) : Prop :=
  (∀ e, addressTranslation s.params.translation v .data .load = .error e → exec i s = trapOutcome e s) ∧
  (∀ p, addressTranslation s.params.translation v .data .load = .ok p →
    (∃ k < n, addressExists s.params (p + k) = false) → exec i s = trapOutcome (.busError .load v) s) ∧
  (∀ p, addressTranslation s.params.translation v .data .load = .ok p →
    (∀ k < n, addressExists s.params (p + k) = true) →
    ∃ t, exec i s = .next t ∧ RegisterSet s t rt (value p) ∧ MemoryKept s t
      ∧ SequentialEnd s t (if rt = 0#5 then none else some rt))

/-- Every answer of a load of `n` bytes: Address Error when the effective address is misaligned, before anything else
(R42, R46). -/
def LoadAnswers (i : Instr) (s : State) (v : Word) (n : Nat) (rt : RegId) (value : Nat → Word) : Prop :=
  (v.toNat % n ≠ 0 → exec i s = trapOutcome (.addressError .load v) s) ∧
  (v.toNat % n = 0 → LoadLands i s v n rt value)

/-- The answers of a store of the `n` low bytes of `d` whose effective address `v` is aligned, in the order of R47; the next
state has those bytes at the physical address, every other byte and every register as before, and the stored addresses
in the written set (R47, R183). -/
def StoreLands (i : Instr) (s : State) (v : Word) (n : Nat) (d : Word) : Prop :=
  (∀ e, addressTranslation s.params.translation v .data .store = .error e → exec i s = trapOutcome e s) ∧
  (∀ p, addressTranslation s.params.translation v .data .store = .ok p →
    (∃ k < n, addressExists s.params (p + k) = false) → exec i s = trapOutcome (.busError .store v) s) ∧
  (∀ p, addressTranslation s.params.translation v .data .store = .ok p →
    (∀ k < n, addressExists s.params (p + k) = true) →
    ∃ t, exec i s = .next t ∧ RegistersKept s t ∧ t.params = s.params ∧ SequentialEnd s t none
      ∧ (∀ k < n, t.mem.read (p + k) = storedByte s n d k)
      ∧ (∀ a, a < p ∨ p + n ≤ a → t.mem.read a = s.mem.read a)
      ∧ (∀ a, a ∈ t.written ↔ (p ≤ a ∧ a < p + n) ∨ a ∈ s.written))

/-- Every answer of a store of `n` bytes: Address Error when the effective address is misaligned, before anything else
(R42, R47). -/
def StoreAnswers (i : Instr) (s : State) (v : Word) (n : Nat) (d : Word) : Prop :=
  (v.toNat % n ≠ 0 → exec i s = trapOutcome (.addressError .store v) s) ∧
  (v.toNat % n = 0 → StoreLands i s v n d)

/-- `s` fetches the instruction `i` from `pc`: `pc` is aligned and translated, the four bytes exist and no store has
written one of them, and the word they make decodes to `i` (R43, R48, R59, R86). -/
def Fetches (s : State) (i : Instr) : Prop :=
  s.pc.toNat % 4 = 0 ∧ ∃ p, addressTranslation s.params.translation s.pc .instruction .load = .ok p
    ∧ (∀ k < 4, addressExists s.params (p + k) = true) ∧ (∀ k < 4, p + k ∉ s.written)
    ∧ decodeWord (wordAt s p) = .ok i

end Sys2Proof.Machine
end

