-- ==== Sys2Proof/Certificates/Slice0/Obligations.lean ====
section
/-!
DEFINITION. The statements for the provers, each a `def Obligations.<Name> : Prop`. Docstrings name the rules of spec/ they
formalise. Values are written as the spec writes them (integers for arithmetic, bits for logic, powers of two for
shifts), not as the meanings compute them.
-/

open Sys2Proof Sys2Proof.Machine

/-! ### Encoding -/

/-- A few of the words the spec writes out (its examples in 40 to 45 and 95_test_vectors.md) decode to the instruction
they are given for. -/
def Obligations.SpecWordsDecode : Prop :=
  decodeWord 0x00221820#32 = .ok (.add 3#5 1#5 2#5) ∧ decodeWord 0x2022FFFF#32 = .ok (.addi 2#5 1#5 0xFFFF#16)
  ∧ decodeWord 0x3C011234#32 = .ok (.lui 1#5 0x1234#16) ∧ decodeWord 0x00021900#32 = .ok (.sll 3#5 2#5 4#5)
  ∧ decodeWord 0x00221804#32 = .ok (.sllv 3#5 2#5 1#5) ∧ decodeWord 0x10220003#32 = .ok (.beq 1#5 2#5 3#16)
  ∧ decodeWord 0x0C100008#32 = .ok (.jal 0x0100008#26) ∧ decodeWord 0x00A0F809#32 = .ok (.jalr 31#5 5#5)
  ∧ decodeWord 0x8C220008#32 = .ok (.lw 2#5 8#16 1#5) ∧ decodeWord 0xA0220003#32 = .ok (.sb 2#5 3#16 1#5)
  ∧ decodeWord 0x9C220008#32 = .ok (.lwu 2#5 8#16 1#5)
  ∧ decodeWord 0x24010001#32 = .error (.unknownEncoding 0x24010001#32)

/-- No bit of an encoding is dropped: the word of every instruction decodes to it (R82, R86). -/
def Obligations.DecodeOfEncode : Prop := ∀ i : Instr, decodeWord (encode i) = .ok i

/-- The decoder is strict: a word that decodes is the word of what it decodes to (R86, R87). -/
def Obligations.EncodeOfDecode : Prop := ∀ (w : Word) (i : Instr), decodeWord w = .ok i → encode i = w

/-- The four bytes of an instruction, laid out in either byte order with anything after them, decode to it and hand the
rest back (R41, R70, R242). -/
def Obligations.DecodeOfEncodedBytes : Prop :=
  ∀ (i : Instr) (bigEndian : Bool) (rest : List Byte),
    decodeBytes bigEndian (bytesOfWord bigEndian (encode i) ++ rest) = .ok (i, rest)

/-- From R86 and R87 (b): the decoder answers an instruction exactly for the words of the opcode table, the one whose row the
word matches, and refuses every other word by name. -/
def Obligations.DecoderIsTheTable : Prop :=
  ∀ w : Word,
    (∀ r ∈ opcodeRows, r.matches w → ∃ i, decodeWord w = .ok i ∧ i.mnemonic = r.mnemonic)
    ∧ ((∀ r ∈ opcodeRows, ¬ r.matches w) → decodeWord w = .error (.unknownEncoding w))

/-- R83: no two patterns of the opcode table overlap. -/
def Obligations.TableRowsAreDisjoint : Prop :=
  ∀ r ∈ opcodeRows, ∀ q ∈ opcodeRows, ∀ w : Word, r.matches w → q.matches w → r = q

/-! ### Arithmetic -/

/-- R101, R102, R104: ADD, ADDI and SUB write the exact signed result when it fits in 32 bits, and raise Integer Overflow
with nothing written when it does not; a destination of 0 discards the result and still raises. -/
def Obligations.TrappingArithmetic : Prop :=
  ∀ (s : State) (rd rs rt : RegId) (imm : BitVec 16),
    decodeWord (0b000000#6 ++ rs ++ rt ++ rd ++ 0b00000#5 ++ 0b100000#6) = .ok (.add rd rs rt)
    ∧ decodeWord (0b001000#6 ++ rs ++ rt ++ imm) = .ok (.addi rt rs imm)
    ∧ decodeWord (0b000000#6 ++ rs ++ rt ++ rd ++ 0b00000#5 ++ 0b100010#6) = .ok (.sub rd rs rt)
    ∧ YieldsOrOverflows (.add rd rs rt) s rd ((s.x rs).toInt + (s.x rt).toInt)
    ∧ YieldsOrOverflows (.addi rt rs imm) s rt ((s.x rs).toInt + imm.toInt)
    ∧ YieldsOrOverflows (.sub rd rs rt) s rd ((s.x rs).toInt - (s.x rt).toInt)

/-- R103, R105: ADDU and SUBU write the sum and the difference modulo 2^32 and never raise. -/
def Obligations.WrappingArithmetic : Prop :=
  ∀ (s : State) (rd rs rt : RegId),
    decodeWord (0b000000#6 ++ rs ++ rt ++ rd ++ 0b00000#5 ++ 0b100001#6) = .ok (.addu rd rs rt)
    ∧ decodeWord (0b000000#6 ++ rs ++ rt ++ rd ++ 0b00000#5 ++ 0b100011#6) = .ok (.subu rd rs rt)
    ∧ Yields (.addu rd rs rt) s rd (BitVec.ofNat 32 ((s.x rs).toNat + (s.x rt).toNat))
    ∧ Yields (.subu rd rs rt) s rd (BitVec.ofInt 32 ((s.x rs).toNat - (s.x rt).toNat))

/-- R106, R107: SLT and SLTI write 1 or 0, by the comparison of the true signed values; the destination of SLTI is rt. -/
def Obligations.SignedComparison : Prop :=
  ∀ (s : State) (rd rs rt : RegId) (imm : BitVec 16),
    decodeWord (0b000000#6 ++ rs ++ rt ++ rd ++ 0b00000#5 ++ 0b101010#6) = .ok (.slt rd rs rt)
    ∧ decodeWord (0b001010#6 ++ rs ++ rt ++ imm) = .ok (.slti rt rs imm)
    ∧ ((s.x rs).toInt < (s.x rt).toInt → Yields (.slt rd rs rt) s rd 1#32)
    ∧ ((s.x rt).toInt ≤ (s.x rs).toInt → Yields (.slt rd rs rt) s rd 0#32)
    ∧ ((s.x rs).toInt < imm.toInt → Yields (.slti rt rs imm) s rt 1#32)
    ∧ (imm.toInt ≤ (s.x rs).toInt → Yields (.slti rt rs imm) s rt 0#32)

/-- R108 (and R103, R105): where ADD and SUB do not raise, ADDU and SUBU reach the same next state. -/
def Obligations.TrappingAndWrappingAgree : Prop :=
  ∀ (s t : State) (rd rs rt : RegId),
    (exec (.add rd rs rt) s = .next t → exec (.addu rd rs rt) s = .next t)
    ∧ (exec (.sub rd rs rt) s = .next t → exec (.subu rd rs rt) s = .next t)

/-! ### Logic and constants -/

/-- R120, R123, R124, R126: AND, NOR, OR and XOR, bit by bit. -/
def Obligations.RegisterLogic : Prop :=
  ∀ (s : State) (rd rs rt : RegId) (v : Word),
    decodeWord (0b000000#6 ++ rs ++ rt ++ rd ++ 0b00000#5 ++ 0b100100#6) = .ok (.and rd rs rt)
    ∧ decodeWord (0b000000#6 ++ rs ++ rt ++ rd ++ 0b00000#5 ++ 0b100111#6) = .ok (.nor rd rs rt)
    ∧ decodeWord (0b000000#6 ++ rs ++ rt ++ rd ++ 0b00000#5 ++ 0b100101#6) = .ok (.or rd rs rt)
    ∧ decodeWord (0b000000#6 ++ rs ++ rt ++ rd ++ 0b00000#5 ++ 0b100110#6) = .ok (.xor rd rs rt)
    ∧ ((∀ k < 32, v.getLsbD k = ((s.x rs).getLsbD k && (s.x rt).getLsbD k)) → Yields (.and rd rs rt) s rd v)
    ∧ ((∀ k < 32, v.getLsbD k = !((s.x rs).getLsbD k || (s.x rt).getLsbD k)) → Yields (.nor rd rs rt) s rd v)
    ∧ ((∀ k < 32, v.getLsbD k = ((s.x rs).getLsbD k || (s.x rt).getLsbD k)) → Yields (.or rd rs rt) s rd v)
    ∧ ((∀ k < 32, v.getLsbD k = ((s.x rs).getLsbD k != (s.x rt).getLsbD k)) → Yields (.xor rd rs rt) s rd v)

/-- R121, R122, R125, R127: ANDI, ORI and XORI, bit by bit with the immediate zero-extended (its bits from 16 up are 0),
and LUI; the destination of all four is rt. -/
def Obligations.ImmediateLogic : Prop :=
  ∀ (s : State) (rs rt : RegId) (imm : BitVec 16) (v : Word),
    decodeWord (0b001100#6 ++ rs ++ rt ++ imm) = .ok (.andi rt rs imm)
    ∧ decodeWord (0b001111#6 ++ 0b00000#5 ++ rt ++ imm) = .ok (.lui rt imm)
    ∧ decodeWord (0b001101#6 ++ rs ++ rt ++ imm) = .ok (.ori rt rs imm)
    ∧ decodeWord (0b001110#6 ++ rs ++ rt ++ imm) = .ok (.xori rt rs imm)
    ∧ ((∀ k < 32, v.getLsbD k = (imm.getLsbD k && (s.x rs).getLsbD k)) → Yields (.andi rt rs imm) s rt v)
    ∧ Yields (.lui rt imm) s rt (BitVec.ofNat 32 (imm.toNat * 2 ^ 16))
    ∧ ((∀ k < 32, v.getLsbD k = (imm.getLsbD k || (s.x rs).getLsbD k)) → Yields (.ori rt rs imm) s rt v)
    ∧ ((∀ k < 32, v.getLsbD k = ((s.x rs).getLsbD k != imm.getLsbD k)) → Yields (.xori rt rs imm) s rt v)

/-- From R122 and R125: LUI followed by ORI on the same register builds the 32-bit constant. -/
def Obligations.UpperThenLowerBuildsAConstant : Prop :=
  ∀ (s t u : State) (rt : RegId) (hi lo : BitVec 16), rt ≠ 0#5 →
    exec (.lui rt hi) s = .next t → exec (.ori rt rt lo) t = .next u → u.x rt = hi ++ lo

/-! ### Shifts -/

/-- R190, R192, R194: SLL multiplies by 2^sa modulo 2^32, SRA divides the signed value by 2^sa rounding down, SRL divides
the unsigned value; the operand is x[rt]. -/
def Obligations.ConstantShifts : Prop :=
  ∀ (s : State) (rd rt : RegId) (sa : BitVec 5),
    decodeWord (0b000000#6 ++ 0b00000#5 ++ rt ++ rd ++ sa ++ 0b000000#6) = .ok (.sll rd rt sa)
    ∧ decodeWord (0b000000#6 ++ 0b00000#5 ++ rt ++ rd ++ sa ++ 0b000011#6) = .ok (.sra rd rt sa)
    ∧ decodeWord (0b000000#6 ++ 0b00000#5 ++ rt ++ rd ++ sa ++ 0b000010#6) = .ok (.srl rd rt sa)
    ∧ Yields (.sll rd rt sa) s rd (BitVec.ofNat 32 ((s.x rt).toNat * 2 ^ sa.toNat))
    ∧ Yields (.sra rd rt sa) s rd (BitVec.ofInt 32 ((s.x rt).toInt / 2 ^ sa.toNat))
    ∧ Yields (.srl rd rt sa) s rd (BitVec.ofNat 32 ((s.x rt).toNat / 2 ^ sa.toNat))

/-- R191, R193, R195, R196: the same with the count x[rs] modulo 32. -/
def Obligations.VariableShifts : Prop :=
  ∀ (s : State) (rd rt rs : RegId),
    decodeWord (0b000000#6 ++ rs ++ rt ++ rd ++ 0b00000#5 ++ 0b000100#6) = .ok (.sllv rd rt rs)
    ∧ decodeWord (0b000000#6 ++ rs ++ rt ++ rd ++ 0b00000#5 ++ 0b000111#6) = .ok (.srav rd rt rs)
    ∧ decodeWord (0b000000#6 ++ rs ++ rt ++ rd ++ 0b00000#5 ++ 0b000110#6) = .ok (.srlv rd rt rs)
    ∧ Yields (.sllv rd rt rs) s rd (BitVec.ofNat 32 ((s.x rt).toNat * 2 ^ ((s.x rs).toNat % 32)))
    ∧ Yields (.srav rd rt rs) s rd (BitVec.ofInt 32 ((s.x rt).toInt / 2 ^ ((s.x rs).toNat % 32)))
    ∧ Yields (.srlv rd rt rs) s rd (BitVec.ofNat 32 ((s.x rt).toNat / 2 ^ ((s.x rs).toNat % 32)))

/-! ### Branches and jumps -/

/-- R140, R141: BEQ and BNE leave the target, the delay slot's address plus four times the signed offset, or else the
instruction after the delay slot, in `npc`; they change nothing else. -/
def Obligations.ConditionalBranches : Prop :=
  ∀ (s : State) (rs rt : RegId) (offset : BitVec 16),
    decodeWord (0b000100#6 ++ rs ++ rt ++ offset) = .ok (.beq rs rt offset)
    ∧ decodeWord (0b000101#6 ++ rs ++ rt ++ offset) = .ok (.bne rs rt offset)
    ∧ (∃ t, exec (.beq rs rt offset) s = .next t ∧ RegistersKept s t ∧ MemoryKept s t
        ∧ TransferEnd s t (if s.x rs = s.x rt then BitVec.ofInt 32 (s.pc.toNat + 4 + 4 * offset.toInt)
            else s.npc + 4#32))
    ∧ (∃ t, exec (.bne rs rt offset) s = .next t ∧ RegistersKept s t ∧ MemoryKept s t
        ∧ TransferEnd s t (if s.x rs = s.x rt then s.npc + 4#32
            else BitVec.ofInt 32 (s.pc.toNat + 4 + 4 * offset.toInt)))

/-- R142, R143: J and JAL leave in `npc` the address with the four top bits of the delay slot's address and four times
the index below them; JAL writes the link pc + 8 to register 31. -/
def Obligations.RegionJumps : Prop :=
  ∀ (s : State) (index : BitVec 26) (target : Word),
    target.toNat = (s.pc + 4#32).toNat / 2 ^ 28 * 2 ^ 28 + 4 * index.toNat →
    decodeWord (0b000010#6 ++ index) = .ok (.j index)
    ∧ decodeWord (0b000011#6 ++ index) = .ok (.jal index)
    ∧ (∃ t, exec (.j index) s = .next t ∧ RegistersKept s t ∧ MemoryKept s t ∧ TransferEnd s t target)
    ∧ (∃ t, exec (.jal index) s = .next t ∧ RegisterSet s t 31#5 (s.pc + 8#32) ∧ MemoryKept s t
        ∧ TransferEnd s t target)

/-- R144: JR leaves x[rs] in `npc`, aligned or not, and never raises; the delay-slot instruction then runs, and a
misaligned target raises Address Error when it is fetched, with `ds` = 0. -/
def Obligations.RegisterJump : Prop :=
  ∀ (s : State) (rs : RegId),
    decodeWord (0b000000#6 ++ rs ++ 0b000000000000000#15 ++ 0b001000#6) = .ok (.jr rs)
    ∧ ∃ t, exec (.jr rs) s = .next t ∧ RegistersKept s t ∧ MemoryKept s t ∧ TransferEnd s t (s.x rs)
      ∧ ∀ k u, isControlTransfer k = false → exec k t = .next u →
          u.pc = s.x rs ∧ u.ds = false
          ∧ ((s.x rs).toNat % 4 ≠ 0 → u.done = false →
              step u = .fault (.trap (.addressError .fetch (s.x rs)) (s.x rs) false u))

/-- R145: JALR with different specifiers writes the link pc + 8 to rd and leaves x[rs] in `npc`, x[rs] being read first;
with equal specifiers (0 included) it is refused by name. A misaligned target raises only when it is fetched. -/
def Obligations.RegisterJumpAndLink : Prop :=
  ∀ (s : State) (rd rs : RegId),
    decodeWord (0b000000#6 ++ rs ++ 0b00000#5 ++ rd ++ 0b00000#5 ++ 0b001001#6) = .ok (.jalr rd rs)
    ∧ (rs = rd → exec (.jalr rd rs) s = .refused (.jalrRsEqualsRd s))
    ∧ (rs ≠ rd → ∃ t, exec (.jalr rd rs) s = .next t ∧ RegisterSet s t rd (s.pc + 8#32) ∧ MemoryKept s t
      ∧ TransferEnd s t (s.x rs)
      ∧ ∀ k u, isControlTransfer k = false → exec k t = .next u →
          u.pc = s.x rs ∧ u.ds = false
          ∧ ((s.x rs).toNat % 4 ≠ 0 → u.done = false →
              step u = .fault (.trap (.addressError .fetch (s.x rs)) (s.x rs) false u)))

/-! ### Loads and stores -/

/-- R160, R161: LB and LBU, with every answer of R46 (a byte access has no alignment requirement). -/
def Obligations.ByteLoads : Prop :=
  ∀ (s : State) (rt base : RegId) (offset : BitVec 16),
    decodeWord (0b100000#6 ++ base ++ rt ++ offset) = .ok (.lb rt offset base)
    ∧ decodeWord (0b100100#6 ++ base ++ rt ++ offset) = .ok (.lbu rt offset base)
    ∧ LoadLands (.lb rt offset base) s (effectiveAddress offset base s) 1 rt
        (fun p => BitVec.ofInt 32 (s.mem.read p).toInt)
    ∧ LoadLands (.lbu rt offset base) s (effectiveAddress offset base s) 1 rt
        (fun p => BitVec.ofNat 32 (s.mem.read p).toNat)

/-- R162, R163: LH and LHU, with every answer of R46. -/
def Obligations.HalfwordLoads : Prop :=
  ∀ (s : State) (rt base : RegId) (offset : BitVec 16),
    decodeWord (0b100001#6 ++ base ++ rt ++ offset) = .ok (.lh rt offset base)
    ∧ decodeWord (0b100101#6 ++ base ++ rt ++ offset) = .ok (.lhu rt offset base)
    ∧ LoadAnswers (.lh rt offset base) s (effectiveAddress offset base s) 2 rt
        (fun p => BitVec.ofInt 32 (halfAt s p).toInt)
    ∧ LoadAnswers (.lhu rt offset base) s (effectiveAddress offset base s) 2 rt
        (fun p => BitVec.ofNat 32 (halfAt s p).toNat)

/-- R164: LW, with every answer of R46. -/
def Obligations.WordLoads : Prop :=
  ∀ (s : State) (rt base : RegId) (offset : BitVec 16),
    decodeWord (0b100011#6 ++ base ++ rt ++ offset) = .ok (.lw rt offset base)
    ∧ LoadAnswers (.lw rt offset base) s (effectiveAddress offset base s) 4 rt (wordAt s)

/-- R165: every LWU word raises Reserved Instruction, whatever its fields, and changes nothing. -/
def Obligations.LoadWordUnsignedIsReserved : Prop :=
  ∀ (s : State) (rt base : RegId) (offset : BitVec 16),
    decodeWord (0b100111#6 ++ base ++ rt ++ offset) = .ok (.lwu rt offset base)
    ∧ exec (.lwu rt offset base) s = trapOutcome .reservedInstruction s

/-- R180: SB, with every answer of R47 (a byte access has no alignment requirement). -/
def Obligations.ByteStores : Prop :=
  ∀ (s : State) (rt base : RegId) (offset : BitVec 16), s.mem.wf →
    decodeWord (0b101000#6 ++ base ++ rt ++ offset) = .ok (.sb rt offset base)
    ∧ StoreLands (.sb rt offset base) s (effectiveAddress offset base s) 1 (s.x rt)

/-- R181: SH, with every answer of R47. -/
def Obligations.HalfwordStores : Prop :=
  ∀ (s : State) (rt base : RegId) (offset : BitVec 16), s.mem.wf →
    decodeWord (0b101001#6 ++ base ++ rt ++ offset) = .ok (.sh rt offset base)
    ∧ StoreAnswers (.sh rt offset base) s (effectiveAddress offset base s) 2 (s.x rt)

/-- R182: SW, with every answer of R47. -/
def Obligations.WordStores : Prop :=
  ∀ (s : State) (rt base : RegId) (offset : BitVec 16), s.mem.wf →
    decodeWord (0b101011#6 ++ base ++ rt ++ offset) = .ok (.sw rt offset base)
    ∧ StoreAnswers (.sw rt offset base) s (effectiveAddress offset base s) 4 (s.x rt)

/-- R166: the effective address is the signed offset plus the base register, modulo 2^32. -/
def Obligations.EffectiveAddressWraps : Prop :=
  ∀ (s : State) (offset : BitVec 16) (base : RegId),
    effectiveAddress offset base s = BitVec.ofInt 32 (offset.toInt + (s.x base).toNat)

/-- R52: a translation keeps the two low bits of the address (b) and stays within PSIZE bits; what it raises is TLB
Refill, TLB Invalid, TLB Modified (for a store only, (c)) or Address Error, of the access made. -/
def Obligations.TranslationKeepsItsRequirements : Prop :=
  ∀ (t : AddressTranslation) (v : Word) (iord : IorD) (lors : LorS),
    (∀ p, addressTranslation t v iord lors = .ok p → p % 4 = v.toNat % 4 ∧ (2 ≤ t.psize → p < 2 ^ t.psize))
    ∧ (∀ e, addressTranslation t v iord lors = .error e →
        e = .tlbRefill (accessKind iord lors) v ∨ e = .tlbInvalid (accessKind iord lors) v
        ∨ (e = .tlbModified v ∧ lors = .store) ∨ e = .addressError (accessKind iord lors) v)

/-- R53: under the default instance no translation raises and the physical address is the virtual one, so an access of any
kind and size raises Address Error for misalignment only, and otherwise nothing but Bus Error. -/
def Obligations.IdentityTranslationNeverRaises : Prop :=
  ∀ (s : State) (v : Word) (n : AccessSize) (iord : IorD) (lors : LorS),
    s.params.translation = AddressTranslation.identity →
    addressTranslation s.params.translation v iord lors = .ok v.toNat
    ∧ ∀ e, locate s v n iord lors = .error e →
        (v.toNat % n.bytes ≠ 0 ∧ e = .addressError (accessKind iord lors) v)
        ∨ (v.toNat % n.bytes = 0 ∧ e = .busError (accessKind iord lors) v)

/-- R49: a word written with SW's MemWrite is read back at every width as the byte order places it. -/
def Obligations.MixedWidthAccess : Prop :=
  ∀ (s t : State) (v d : Word) (p : Nat), s.mem.wf →
    locate s v .word .data .store = .ok p → memWrite s v .word d = .ok t →
    (∀ k < 4, addressTranslation s.params.translation (v + BitVec.ofNat 32 k) .data .load = .ok (p + k)) →
    memRead t v .word = .ok d
    ∧ (∀ k < 4, memRead t (v + BitVec.ofNat 32 k) .byte
        = .ok (d.extractLsb' (if s.params.bigEndianMem = true then 24 - 8 * k else 8 * k) 8))
    ∧ memRead t v .half = .ok (d.extractLsb' (if s.params.bigEndianMem = true then 16 else 0) 16)
    ∧ memRead t (v + 2#32) .half = .ok (d.extractLsb' (if s.params.bigEndianMem = true then 0 else 16) 16)

/-! ### The step -/

/-- R24: when the bytes at `pc` decode to an instruction and no hazard of step 5 stands in the way, the step is that
instruction's meaning at that state; `exec` holds the sequencing of steps 6, 8 and 9, so the step adds nothing around it. -/
def Obligations.StepRunsTheDecodedInstruction : Prop :=
  ∀ (s : State) (i : Instr), s.done = false → Fetches s i →
    (isControlTransfer i = true → s.ds = false) → (∀ r, s.ld = some r → r ∉ reads i) → step s = exec i s

/-- R43, R48, R59, R208 (1 to 3): what a step answers by its fetch, in the order of the tests: Address Error, the
exception of the translation, Bus Error, the refusal of bytes a store has written; else it goes on with the word. -/
def Obligations.FetchAnswers : Prop :=
  ∀ s : State, s.done = false →
    (s.pc.toNat % 4 ≠ 0 → step s = trapOutcome (.addressError .fetch s.pc) s)
    ∧ (s.pc.toNat % 4 = 0 → ∀ e, addressTranslation s.params.translation s.pc .instruction .load = .error e →
        step s = trapOutcome e s)
    ∧ (s.pc.toNat % 4 = 0 → ∀ p, addressTranslation s.params.translation s.pc .instruction .load = .ok p →
        ((∃ k < 4, addressExists s.params (p + k) = false) → step s = trapOutcome (.busError .fetch s.pc) s)
        ∧ ((∀ k < 4, addressExists s.params (p + k) = true) → (∃ k < 4, p + k ∈ s.written) →
            step s = .refused (.fetchAfterStore s))
        ∧ ((∀ k < 4, addressExists s.params (p + k) = true) → (∀ k < 4, p + k ∉ s.written) →
            step s = runWord (wordAt s p) s))

/-- R87 (b): a fetched word that no row of the opcode table matches is refused by name. -/
def Obligations.UnknownWordsAreRefused : Prop :=
  ∀ (s : State) (w : Word), s.done = false → fetchWord s = .next w → (∀ r ∈ opcodeRows, ¬ r.matches w) →
    step s = .refused (.unknownEncoding s)

/-- R246: after a load into a register other than 0, a next instruction that reads that register is refused by name. -/
def Obligations.LoadUseIsRefused : Prop :=
  ∀ (s t : State) (i k : Instr) (rt : RegId), isLoad i = true → writes i = some rt → rt ≠ 0#5 → exec i s = .next t →
    t.done = false → Fetches t k → rt ∈ reads k → step t = .refused (.loadDelayViolation t)

/-- From R25 and R24 step 5: a branch or jump in the delay slot of another is refused by name. -/
def Obligations.TransferInADelaySlotIsRefused : Prop :=
  ∀ (s t : State) (i k : Instr), isControlTransfer i = true → exec i s = .next t → Fetches t k →
    isControlTransfer k = true → step t = .refused (.controlTransferInDelaySlot t)

/-- R24 steps 6, 8 and 9: where an instruction completes, `pc` takes the old `npc`, `ds` tells whether it was a control
transfer, `ld` names the destination of a load other than 0, and only a control transfer leaves anything but the next
address in `npc`. -/
def Obligations.StepEndsAsSequenced : Prop :=
  ∀ (s t : State) (i : Instr), exec i s = .next t →
    t.pc = s.npc ∧ t.ds = isControlTransfer i
    ∧ (isControlTransfer i = false → t.npc = s.npc + 4#32)
    ∧ (isLoad i = false → t.ld = none)
    ∧ (isLoad i = true → ∀ rt, writes i = some rt → t.ld = if rt = 0#5 then none else some rt)

/-- R146: in every state of the invariant, a control transfer, taken or not, is followed by the instruction at pc + 4, and
that one by the instruction the transfer left in `npc`. -/
def Obligations.DelaySlotRunsBeforeTheTarget : Prop :=
  ∀ (s t u : State) (i : Instr), s.Inv → s.done = false → Fetches s i → isControlTransfer i = true →
    step s = .next t → (t.pc = s.pc + 4#32 ∧ t.ds = true) ∧ (step t = .next u → u.pc = t.npc ∧ u.ds = false)

/-- R209, R210, R211: a step that raises hands over the state it began in, with `bd` = `ds` and `epc` the branch before it
in a delay slot, else `pc`. -/
def Obligations.TrapsArePrecise : Prop :=
  ∀ (s st : State) (e : Exception) (epc : Word) (bd : Bool), step s = .fault (.trap e epc bd st) →
    st = s ∧ bd = s.ds ∧ epc = if s.ds = true then s.pc - 4#32 else s.pc

/-- R211 over two steps: when the instruction in a delay slot raises, `epc` is the address of the branch before it. -/
def Obligations.DelaySlotTrapNamesTheBranch : Prop :=
  ∀ (s t st : State) (e : Exception) (epc : Word) (bd : Bool), s.Inv → step s = .next t → t.ds = true →
    step t = .fault (.trap e epc bd st) → epc = s.pc ∧ bd = true ∧ st = t

/-- From R145 and R211: a branch or jump executed again from its own address, after an exception in its delay slot, has
the same effect. -/
def Obligations.ReexecutingATransferIsHarmless : Prop :=
  ∀ (s t : State) (i : Instr), isControlTransfer i = true → exec i s = .next t →
    exec i { t with pc := s.pc, npc := s.npc, ds := s.ds, ld := s.ld } = .next t

/-- R200, R201, R206: which instruction can raise which exception; every other instruction never raises. -/
def Obligations.ExceptionsByInstruction : Prop :=
  ∀ (s st : State) (i : Instr) (e : Exception) (epc : Word) (bd : Bool), exec i s = .fault (.trap e epc bd st) →
    (e = .integerOverflow ∧ ((∃ rd rs rt, i = .add rd rs rt) ∨ (∃ rt rs imm, i = .addi rt rs imm)
        ∨ ∃ rd rs rt, i = .sub rd rs rt))
    ∨ (e = .reservedInstruction ∧ ∃ rt offset base, i = .lwu rt offset base)
    ∨ (isLoad i = true ∧ ∃ v, e = .addressError .load v ∨ e = .tlbRefill .load v ∨ e = .tlbInvalid .load v
        ∨ e = .busError .load v)
    ∨ (isStore i = true ∧ ∃ v, e = .addressError .store v ∨ e = .tlbRefill .store v ∨ e = .tlbInvalid .store v
        ∨ e = .tlbModified v ∨ e = .busError .store v)

/-! ### Frames and invariants -/

/-- R21: register 0 reads as zero and discards what is written to it; every other register keeps what it was given. -/
def Obligations.RegisterZeroIsHardWired : Prop :=
  ∀ (s : State) (v : Word), s.x 0#5 = 0#32 ∧ s.setX 0#5 v = s ∧ ∀ r, r ≠ 0#5 → (s.setX r v).x r = v

/-- R22: an instruction changes no general register but the one in its write set. -/
def Obligations.WriteSetIsAll : Prop :=
  ∀ (s t : State) (i : Instr) (r : RegId), exec i s = .next t → writes i ≠ some r → t.x r = s.x r

/-- From R22: the read set is all an instruction reads: another value in a register outside it changes no outcome, and
stays in that register unless the instruction writes it. -/
def Obligations.UnreadRegistersDoNotMatter : Prop :=
  ∀ (s : State) (i : Instr) (r : RegId) (v : Word), r ∉ reads i →
    (∀ t, exec i s = .next t → exec i (s.setX r v) = .next (if writes i = some r then t else t.setX r v))
    ∧ (∀ e epc bd st, exec i s = .fault (.trap e epc bd st) →
        exec i (s.setX r v) = .fault (.trap e epc bd (st.setX r v)))
    ∧ (∀ q, exec i s = .refused q → ∃ q', exec i (s.setX r v) = .refused q')

/-- R88: an instruction whose destination is register 0 changes nothing but `pc`, `npc`, `ds` and `ld`. -/
def Obligations.DestinationZeroChangesNothing : Prop :=
  ∀ (s t : State) (i : Instr), writes i = some 0#5 → exec i s = .next t →
    RegistersKept s t ∧ MemoryKept s t

/-- R31: memory is written by stores only. -/
def Obligations.OnlyStoresWriteMemory : Prop :=
  ∀ (s t : State) (i : Instr), isStore i = false → exec i s = .next t → MemoryKept s t

/-- R27: from an aligned `pc` and `npc`, every instruction but JR and JALR leaves both aligned. -/
def Obligations.OnlyRegisterJumpsMisalign : Prop :=
  ∀ (s t : State) (i : Instr), (∀ rs, i ≠ .jr rs) → (∀ rd rs, i ≠ .jalr rd rs) → s.pc.toNat % 4 = 0 →
    s.npc.toNat % 4 = 0 → exec i s = .next t → t.pc.toNat % 4 = 0 ∧ t.npc.toNat % 4 = 0

/-- From R7, R8 and R242: no step changes a parameter of the run. -/
def Obligations.ParametersAreFixed : Prop := ∀ s t : State, step s = .next t → t.params = s.params

/-- From R33 and R47: the written set only grows, and holds every byte whose value a step changes. -/
def Obligations.ChangedBytesAreInTheWrittenSet : Prop :=
  ∀ s t : State, step s = .next t →
    (∀ a ∈ s.written, a ∈ t.written) ∧ (∀ a, t.mem.read a ≠ s.mem.read a → a ∈ t.written)

/-- From R48, R59 and R242: along every run from a launch, the instruction a state fetches is the one the launch placed
there, whatever was stored since. -/
def Obligations.FetchedCodeIsTheLaunchedCode : Prop :=
  ∀ (p : Params) (g : Vector Word 31) (m : Memory) (n : Nat) (t : State) (w : Word),
    Sys2Proof.core.run n (State.launch p g m) = .next t → fetchWord t = .next w →
    fetchWord { State.launch p g m with pc := t.pc } = .next w

/-- Every step keeps the invariant (R25, R26, R31, R33, R54). -/
def Obligations.StepKeepsTheInvariant : Prop := ∀ s t : State, s.Inv → step s = .next t → t.Inv

/-- The invariant holds at State.reset. -/
def Obligations.ResetHasTheInvariant : Prop := State.reset.Inv

/-- The invariant holds at every launch over memory in canonical form inside `PhysMem`, and along every run from it. -/
def Obligations.RunsKeepTheInvariant : Prop :=
  ∀ (p : Params) (g : Vector Word 31) (m : Memory), m.wf → (∀ c ∈ m.cells, addressExists p c.1 = true) →
    (State.launch p g m).Inv ∧ ∀ n t, Sys2Proof.core.run n (State.launch p g m) = .next t → t.Inv

/-! ### Launch, reset, end of a run -/

/-- R240: what reset leaves, for every choice of the launch. -/
def Obligations.ResetLeavesTheLaunchState : Prop :=
  ∀ (p : Params) (g : Vector Word 31) (m : Memory),
    (State.launch p g m).x 0#5 = 0#32
    ∧ (∀ k (h : k < 31), (State.launch p g m).x (BitVec.ofNat 5 (k + 1)) = g[k])
    ∧ (State.launch p g m).pc = p.resetPC ∧ (State.launch p g m).npc = p.resetPC + 4#32
    ∧ (State.launch p g m).ds = false ∧ (State.launch p g m).ld = none ∧ (State.launch p g m).written = []
    ∧ (State.launch p g m).mem = m ∧ (State.launch p g m).params = p

/-- The MODEL'S choice of State.reset where the spec leaves the launch open (entries 2, 4, 5, 6, 8, 9): a launch with every
register and every byte of memory zero, ResetPC 0, and no end address. -/
def Obligations.ResetIsTheLaunchOfZeros : Prop :=
  (∀ r, State.reset.x r = 0#32) ∧ (∀ a, State.reset.mem.read a = 0#8)
  ∧ State.reset.pc = 0#32 ∧ State.reset.npc = 4#32 ∧ State.reset.params.endPC = none
  ∧ State.reset.params.bigEndianMem = false ∧ ∀ a < 2 ^ 32, addressExists State.reset.params a = true

/-- R250, with the MODEL'S choice of entry 7 for what a run that is over answers: at `EndPC` with `ds` = 0 the step stays
where it is, whatever stands there; anywhere else, and at `EndPC` in a delay slot, it goes by what it fetches. -/
def Obligations.RunEndsAtEndPC : Prop :=
  ∀ s : State,
    (s.params.endPC = some s.pc → s.ds = false → step s = .next s)
    ∧ (s.params.endPC ≠ some s.pc ∨ s.ds = true → ∀ w, fetchWord s = .next w → step s = runWord w s)

/-- From R41 and R242: a word placed where the next step fetches lies there in the byte order of the run, leaves every
other byte alone, and is the word fetched. -/
def Obligations.PlacedWordIsFetched : Prop :=
  ∀ (s : State) (w : Word) (p : Nat), s.mem.wf → locate s s.pc .word .instruction .load = .ok p →
    (∀ k < 4, (s.withFetchWord 32 w.toNat).mem.read (p + k) = storedByte s 4 w k)
    ∧ (∀ a, a < p ∨ p + 4 ≤ a → (s.withFetchWord 32 w.toNat).mem.read a = s.mem.read a)
    ∧ fetchWord (s.withFetchWord 32 w.toNat) = .next w
end

