-- ==== Sys2Proof/Laws/Decode.lean ====
section
/-!
SUPPORT. What each field of an encoded word is, format by format (R71 to R78), how a word is put together from its
fields, and a masked word of each format (R82).
-/

namespace Sys2Proof

open BitVec

/-! ### Fields of joined words (R71) -/

/-- The six fields of a word joined from them. -/
theorem sixFields (a : BitVec 6) (b c d e : BitVec 5) (f : BitVec 6) :
    opcodeOf (a ++ b ++ c ++ d ++ e ++ f) = a ∧ rsOf (a ++ b ++ c ++ d ++ e ++ f) = b
      ∧ rtOf (a ++ b ++ c ++ d ++ e ++ f) = c ∧ rdOf (a ++ b ++ c ++ d ++ e ++ f) = d
      ∧ saOf (a ++ b ++ c ++ d ++ e ++ f) = e ∧ functionOf (a ++ b ++ c ++ d ++ e ++ f) = f := by
  refine ⟨?_, ?_, ?_, ?_, ?_, ?_⟩ <;> simp only [opcodeOf, rsOf, rtOf, rdOf, saOf, functionOf]
  · rw [extractLsb'_append_eq_of_le (by decide), extractLsb'_append_eq_of_le (by decide),
      extractLsb'_append_eq_of_le (by decide), extractLsb'_append_eq_of_le (by decide),
      extractLsb'_append_eq_of_le (by decide)]
    exact extractLsb'_eq_self
  · rw [extractLsb'_append_eq_of_le (by decide), extractLsb'_append_eq_of_le (by decide),
      extractLsb'_append_eq_of_le (by decide), extractLsb'_append_eq_of_le (by decide),
      extractLsb'_append_eq_of_add_le (by decide)]
    exact extractLsb'_eq_self
  · rw [extractLsb'_append_eq_of_le (by decide), extractLsb'_append_eq_of_le (by decide),
      extractLsb'_append_eq_of_le (by decide), extractLsb'_append_eq_of_add_le (by decide)]
    exact extractLsb'_eq_self
  · rw [extractLsb'_append_eq_of_le (by decide), extractLsb'_append_eq_of_le (by decide),
      extractLsb'_append_eq_of_add_le (by decide)]
    exact extractLsb'_eq_self
  · rw [extractLsb'_append_eq_of_le (by decide), extractLsb'_append_eq_of_add_le (by decide)]
    exact extractLsb'_eq_self
  · rw [extractLsb'_append_eq_of_add_le (by decide)]
    exact extractLsb'_eq_self

/-- The four fields of a word joined from them. -/
theorem fourFields (a : BitVec 6) (b c : BitVec 5) (d : BitVec 16) :
    opcodeOf (a ++ b ++ c ++ d) = a ∧ rsOf (a ++ b ++ c ++ d) = b ∧ rtOf (a ++ b ++ c ++ d) = c
      ∧ immediateOf (a ++ b ++ c ++ d) = d := by
  refine ⟨?_, ?_, ?_, ?_⟩ <;> simp only [opcodeOf, rsOf, rtOf, immediateOf]
  · rw [extractLsb'_append_eq_of_le (by decide), extractLsb'_append_eq_of_le (by decide),
      extractLsb'_append_eq_of_le (by decide)]
    exact extractLsb'_eq_self
  · rw [extractLsb'_append_eq_of_le (by decide), extractLsb'_append_eq_of_le (by decide),
      extractLsb'_append_eq_of_add_le (by decide)]
    exact extractLsb'_eq_self
  · rw [extractLsb'_append_eq_of_le (by decide), extractLsb'_append_eq_of_add_le (by decide)]
    exact extractLsb'_eq_self
  · rw [extractLsb'_append_eq_of_add_le (by decide)]
    exact extractLsb'_eq_self

/-- The two fields of a word joined from them. -/
theorem twoFields (a : BitVec 6) (b : BitVec 26) : opcodeOf (a ++ b) = a ∧ indexOf (a ++ b) = b := by
  refine ⟨?_, ?_⟩ <;> simp only [opcodeOf, indexOf]
  · rw [extractLsb'_append_eq_of_le (by decide)]
    exact extractLsb'_eq_self
  · rw [extractLsb'_append_eq_of_add_le (by decide)]
    exact extractLsb'_eq_self

/-- The fields of a REG3 word (R72). -/
theorem encodeReg3_fields (rs rt rd : RegId) (f : BitVec 6) :
    opcodeOf (encodeReg3 rs rt rd f) = 0#6 ∧ rsOf (encodeReg3 rs rt rd f) = rs ∧ rtOf (encodeReg3 rs rt rd f) = rt
      ∧ rdOf (encodeReg3 rs rt rd f) = rd ∧ saOf (encodeReg3 rs rt rd f) = 0#5
      ∧ functionOf (encodeReg3 rs rt rd f) = f :=
  sixFields _ _ _ _ _ _

/-- The fields of a SHIFT word (R73). -/
theorem encodeShift_fields (rt rd : RegId) (sa : BitVec 5) (f : BitVec 6) :
    opcodeOf (encodeShift rt rd sa f) = 0#6 ∧ rsOf (encodeShift rt rd sa f) = 0#5 ∧ rtOf (encodeShift rt rd sa f) = rt
      ∧ rdOf (encodeShift rt rd sa f) = rd ∧ saOf (encodeShift rt rd sa f) = sa
      ∧ functionOf (encodeShift rt rd sa f) = f :=
  sixFields _ _ _ _ _ _

/-- The fields of an IMM, MEM or BR word (R75, R76, R77). -/
theorem encodeImm_fields (opcode : BitVec 6) (rs rt : RegId) (imm : BitVec 16) :
    opcodeOf (encodeImm opcode rs rt imm) = opcode ∧ rsOf (encodeImm opcode rs rt imm) = rs
      ∧ rtOf (encodeImm opcode rs rt imm) = rt ∧ immediateOf (encodeImm opcode rs rt imm) = imm :=
  fourFields _ _ _ _

/-- The fields of a JMP word (R78). -/
theorem encodeJump_fields (opcode : BitVec 6) (index : BitVec 26) :
    opcodeOf (encodeJump opcode index) = opcode ∧ indexOf (encodeJump opcode index) = index :=
  twoFields _ _

/-! ### Words joined from their own fields (R71) -/

/-- Every word is the layout of its six fields. -/
theorem word_eq_sixFields (w : Word) :
    opcodeOf w ++ rsOf w ++ rtOf w ++ rdOf w ++ saOf w ++ functionOf w = w := by
  simp only [opcodeOf, rsOf, rtOf, rdOf, saOf, functionOf]
  rw [extractLsb'_append_extractLsb'_eq_extractLsb' (by decide), extractLsb'_append_extractLsb'_eq_extractLsb' (by decide),
    extractLsb'_append_extractLsb'_eq_extractLsb' (by decide), extractLsb'_append_extractLsb'_eq_extractLsb' (by decide),
    extractLsb'_append_extractLsb'_eq_extractLsb' (by decide)]
  exact extractLsb'_eq_self

/-- Every word is the layout of its four fields. -/
theorem word_eq_fourFields (w : Word) : opcodeOf w ++ rsOf w ++ rtOf w ++ immediateOf w = w := by
  simp only [opcodeOf, rsOf, rtOf, immediateOf]
  rw [extractLsb'_append_extractLsb'_eq_extractLsb' (by decide), extractLsb'_append_extractLsb'_eq_extractLsb' (by decide),
    extractLsb'_append_extractLsb'_eq_extractLsb' (by decide)]
  exact extractLsb'_eq_self

/-- Every word is the layout of its two fields. -/
theorem word_eq_twoFields (w : Word) : opcodeOf w ++ indexOf w = w := by
  simp only [opcodeOf, indexOf]
  rw [extractLsb'_append_extractLsb'_eq_extractLsb' (by decide)]
  exact extractLsb'_eq_self

/-! ### Masked words (R82) -/

/-- A mask that keeps or drops each of six fields whole. -/
theorem sixFields_and (a a' : BitVec 6) (b b' c c' d d' e e' : BitVec 5) (f f' : BitVec 6) :
    (a ++ b ++ c ++ d ++ e ++ f) &&& (a' ++ b' ++ c' ++ d' ++ e' ++ f')
      = (a &&& a') ++ (b &&& b') ++ (c &&& c') ++ (d &&& d') ++ (e &&& e') ++ (f &&& f') := by
  rw [and_append, and_append, and_append, and_append, and_append]

/-- A mask that keeps or drops each of four fields whole. -/
theorem fourFields_and (a a' : BitVec 6) (b b' c c' : BitVec 5) (d d' : BitVec 16) :
    (a ++ b ++ c ++ d) &&& (a' ++ b' ++ c' ++ d') = (a &&& a') ++ (b &&& b') ++ (c &&& c') ++ (d &&& d') := by
  rw [and_append, and_append, and_append]

theorem encodeReg3_mask (rs rt rd : RegId) (f : BitVec 6) :
    encodeReg3 rs rt rd f &&& 0xFC0007FF#32 = encodeReg3 0#5 0#5 0#5 f := by
  refine (sixFields_and _ (allOnes 6) _ 0#5 _ 0#5 _ 0#5 _ (allOnes 5) _ (allOnes 6)).trans ?_
  simp only [and_zero, and_allOnes]; rfl

theorem encodeReg3_mask_link (rs rd : RegId) (f : BitVec 6) :
    encodeReg3 rs 0#5 rd f &&& 0xFC1F07FF#32 = encodeReg3 0#5 0#5 0#5 f := by
  refine (sixFields_and _ (allOnes 6) _ 0#5 _ (allOnes 5) _ 0#5 _ (allOnes 5) _ (allOnes 6)).trans ?_
  simp only [and_zero, and_allOnes]; rfl

theorem encodeReg3_mask_jump (rs : RegId) (f : BitVec 6) :
    encodeReg3 rs 0#5 0#5 f &&& 0xFC1FFFFF#32 = encodeReg3 0#5 0#5 0#5 f := by
  refine (sixFields_and _ (allOnes 6) _ 0#5 _ (allOnes 5) _ (allOnes 5) _ (allOnes 5) _ (allOnes 6)).trans ?_
  simp only [and_zero, and_allOnes]; rfl

theorem encodeShift_mask (rt rd : RegId) (sa : BitVec 5) (f : BitVec 6) :
    encodeShift rt rd sa f &&& 0xFFE0003F#32 = encodeShift 0#5 0#5 0#5 f := by
  refine (sixFields_and _ (allOnes 6) _ (allOnes 5) _ 0#5 _ 0#5 _ 0#5 _ (allOnes 6)).trans ?_
  simp only [and_zero, and_allOnes]; rfl

theorem encodeImm_mask (opcode : BitVec 6) (rs rt : RegId) (imm : BitVec 16) :
    encodeImm opcode rs rt imm &&& 0xFC000000#32 = encodeImm opcode 0#5 0#5 0#16 := by
  refine (fourFields_and _ (allOnes 6) _ 0#5 _ 0#5 _ 0#16).trans ?_
  simp only [and_zero, and_allOnes]; rfl

theorem encodeImm_mask_upper (opcode : BitVec 6) (rt : RegId) (imm : BitVec 16) :
    encodeImm opcode 0#5 rt imm &&& 0xFFE00000#32 = encodeImm opcode 0#5 0#5 0#16 := by
  refine (fourFields_and _ (allOnes 6) _ (allOnes 5) _ 0#5 _ 0#16).trans ?_
  simp only [and_zero, and_allOnes]; rfl

theorem encodeJump_mask (opcode : BitVec 6) (index : BitVec 26) :
    encodeJump opcode index &&& 0xFC000000#32 = encodeJump opcode 0#26 := by
  refine (and_append (x₂ := allOnes 6) (y₂ := 0#26)).trans ?_
  simp only [and_zero, and_allOnes]; rfl

end Sys2Proof
end

