-- ==== Sys2Proof/Laws/Memory.lean ====
section
/-!
SUPPORT. The laws of memory: a read after a write, the bytes a write leaves alone, and the canonical form, which every
memory operation keeps. The same for the written set.
-/

namespace Sys2Proof.Machine

/-! ### Cells -/

theorem readCells_append_cellOf (a : Nat) (v : Byte) (l : List Host.Cell) (b : Nat) (h : b ≠ a) :
    readCells (cellOf a v ++ l) b = readCells l b := by
  unfold cellOf; split
  · rfl
  · simp [readCells, Ne.symm h]

/-- A write leaves every other address alone; no canonical form is asked for. -/
theorem readCells_writeCells_ne (l : List Host.Cell) (a : Nat) (v : Byte) {b : Nat} (h : b ≠ a) :
    readCells (writeCells l a v) b = readCells l b := by
  induction l with
  | nil => simpa [writeCells] using readCells_append_cellOf a v [] b h
  | cons c rest ih =>
    unfold writeCells
    split
    · exact readCells_append_cellOf a v _ b h
    · split
      · rename_i hc
        rw [readCells_append_cellOf a v _ b h]
        simp [readCells, ← hc, Ne.symm h]
      · simp only [readCells, ih]

/-- An address below every listed one reads as unlisted. -/
theorem readCells_of_lt (l : List Host.Cell) (a : Nat) (h : ∀ c ∈ l, a < c.1) : readCells l a = unlistedByte := by
  induction l with
  | nil => rfl
  | cons c rest ih =>
    have hc := h c (by simp)
    have : c.1 ≠ a := by omega
    simp only [readCells, this, if_false]
    exact ih (fun d hd => h d (by simp [hd]))

theorem readCells_cellOf_self (a : Nat) (v : Byte) (l : List Host.Cell) (h : ∀ c ∈ l, a < c.1) :
    readCells (cellOf a v ++ l) a = v := by
  unfold cellOf; split
  · rename_i hv; simpa [hv] using readCells_of_lt l a h
  · simp [readCells]

/-- A read after a write to the same address gives the value written, over rising cells. -/
theorem readCells_writeCells_self (l : List Host.Cell) (a : Nat) (v : Byte)
    (h : l.Pairwise (fun c d => c.1 < d.1)) : readCells (writeCells l a v) a = v := by
  induction l with
  | nil => simpa [writeCells] using readCells_cellOf_self a v [] (by simp)
  | cons c rest ih =>
    obtain ⟨hc, hrest⟩ := List.pairwise_cons.mp h
    unfold writeCells
    split
    · rename_i hlt
      apply readCells_cellOf_self
      intro d hd
      rcases List.mem_cons.mp hd with rfl | hd
      · exact hlt
      · exact Nat.lt_trans hlt (hc d hd)
    · split
      · rename_i hac
        exact readCells_cellOf_self a v rest (fun d hd => hac ▸ hc d hd)
      · rename_i h1 h2
        have : c.1 ≠ a := fun h' => h2 h'.symm
        simp only [readCells, this, if_false]
        exact ih hrest

theorem mem_cellOf {a : Nat} {v : Byte} {c : Host.Cell} (h : c ∈ cellOf a v) :
    c = (a, v) ∧ v ≠ unlistedByte := by
  unfold cellOf at h; split at h
  · simp at h
  · rename_i hv; exact ⟨by simpa using h, hv⟩

/-- What a write can list: the written cell, and cells listed before. -/
theorem mem_writeCells (l : List Host.Cell) (a : Nat) (v : Byte) {c : Host.Cell} (h : c ∈ writeCells l a v) :
    (c = (a, v) ∧ v ≠ unlistedByte) ∨ c ∈ l := by
  induction l with
  | nil => exact .inl (mem_cellOf h)
  | cons d rest ih =>
    unfold writeCells at h
    split at h
    · rcases List.mem_append.mp h with h | h
      · exact .inl (mem_cellOf h)
      · exact .inr h
    · split at h
      · rcases List.mem_append.mp h with h | h
        · exact .inl (mem_cellOf h)
        · exact .inr (List.mem_cons_of_mem _ h)
      · rcases List.mem_cons.mp h with rfl | h
        · exact .inr (by simp)
        · rcases ih h with h | h
          · exact .inl h
          · exact .inr (List.mem_cons_of_mem _ h)

theorem cellOf_append_pairwise (a : Nat) (v : Byte) (l : List Host.Cell) (hl : l.Pairwise (fun c d => c.1 < d.1))
    (h : ∀ c ∈ l, a < c.1) : (cellOf a v ++ l).Pairwise (fun c d => c.1 < d.1) := by
  rw [List.pairwise_append]
  refine ⟨?_, hl, ?_⟩
  · unfold cellOf; split <;> simp
  · intro c hc d hd
    rw [(mem_cellOf hc).1]
    exact h d hd

theorem writeCells_pairwise (l : List Host.Cell) (a : Nat) (v : Byte) (h : l.Pairwise (fun c d => c.1 < d.1)) :
    (writeCells l a v).Pairwise (fun c d => c.1 < d.1) := by
  induction l with
  | nil => simpa [writeCells] using cellOf_append_pairwise a v [] h (by simp)
  | cons c rest ih =>
    obtain ⟨hc, hrest⟩ := List.pairwise_cons.mp h
    unfold writeCells
    split
    · rename_i hlt
      apply cellOf_append_pairwise _ _ _ h
      intro d hd
      rcases List.mem_cons.mp hd with rfl | hd
      · exact hlt
      · exact Nat.lt_trans hlt (hc d hd)
    · split
      · rename_i hac
        exact cellOf_append_pairwise _ _ _ hrest (fun d hd => hac ▸ hc d hd)
      · rename_i h1 h2
        refine List.pairwise_cons.mpr ⟨?_, ih hrest⟩
        intro d hd
        rcases mem_writeCells rest a v hd with ⟨rfl, -⟩ | hd
        · show c.1 < a; omega
        · exact hc d hd

/-! ### Memory -/

theorem Memory.read_write_self (m : Memory) (h : m.wf) (a : Nat) (v : Byte) : (m.write a v).read a = v :=
  readCells_writeCells_self m.cells a v h.1

theorem Memory.read_write_ne (m : Memory) (a : Nat) (v : Byte) {b : Nat} (h : b ≠ a) :
    (m.write a v).read b = m.read b :=
  readCells_writeCells_ne m.cells a v h

/-- A write keeps the canonical form. -/
theorem Memory.write_wf (m : Memory) (h : m.wf) (a : Nat) (v : Byte) : (m.write a v).wf := by
  refine ⟨writeCells_pairwise m.cells a v h.1, ?_⟩
  intro c hc
  rcases mem_writeCells m.cells a v hc with ⟨rfl, hv⟩ | hc
  · exact hv
  · exact h.2 c hc

theorem Memory.empty_wf : Memory.empty.wf := by simp [Memory.wf, Memory.empty]

/-- Writing bytes keeps the canonical form. -/
theorem Memory.writeBytes_wf (bs : List Byte) : ∀ (m : Memory) (_ : m.wf) (a : Nat), (m.writeBytes a bs).wf := by
  induction bs with
  | nil => exact fun m h _ => h
  | cons b rest ih => exact fun m h a => ih (m.write a b) (m.write_wf h a b) (a + 1)

/-- Writing bytes leaves every address outside them alone. -/
theorem Memory.read_writeBytes_outside (bs : List Byte) :
    ∀ (m : Memory) (a : Nat) {b : Nat} (_ : b < a ∨ a + bs.length ≤ b), (m.writeBytes a bs).read b = m.read b := by
  induction bs with
  | nil => exact fun m a b _ => rfl
  | cons c rest ih =>
    intro m a b h
    simp only [List.length_cons] at h
    have h1 : b ≠ a := by omega
    rw [Memory.writeBytes, ih (m.write a c) (a + 1) (by omega), m.read_write_ne a c h1]

/-- The bytes written are read back. -/
theorem Memory.read_writeBytes_inside (bs : List Byte) :
    ∀ (m : Memory) (_ : m.wf) (a k : Nat) (hk : k < bs.length), (m.writeBytes a bs).read (a + k) = bs[k] := by
  induction bs with
  | nil => exact fun m _ a k hk => absurd hk (by simp)
  | cons c rest ih =>
    intro m h a k hk
    rw [Memory.writeBytes]
    cases k with
    | zero =>
      rw [Memory.read_writeBytes_outside rest (m.write a c) (a + 1) (by omega)]
      simpa using m.read_write_self h a c
    | succ k =>
      have := ih (m.write a c) (m.write_wf h a c) (a + 1) k (by simpa using hk)
      rw [show a + (k + 1) = a + 1 + k by omega, this]
      simp

/-- What writing bytes can list: addresses of those bytes, and cells listed before. -/
theorem Memory.mem_writeBytes (bs : List Byte) : ∀ (m : Memory) (a : Nat) {c : Host.Cell},
    c ∈ (m.writeBytes a bs).cells → (a ≤ c.1 ∧ c.1 < a + bs.length) ∨ c ∈ m.cells := by
  induction bs with
  | nil => exact fun m a c h => .inr h
  | cons b rest ih =>
    intro m a c h
    simp only [List.length_cons]
    rcases ih (m.write a b) (a + 1) h with h | h
    · exact .inl (by omega)
    · rcases mem_writeCells m.cells a b h with ⟨rfl, -⟩ | h
      · exact .inl ⟨Nat.le_refl _, by omega⟩
      · exact .inr h

/-! ### The written set -/

theorem mem_insertAddress (a b : Nat) (ws : List Nat) : b ∈ insertAddress a ws ↔ b = a ∨ b ∈ ws := by
  induction ws with
  | nil => simp [insertAddress]
  | cons c rest ih =>
    unfold insertAddress
    split
    · simp
    · split
      · rename_i h; subst h; simp
      · simp only [List.mem_cons, ih]; tauto

theorem insertAddress_pairwise (a : Nat) (ws : List Nat) (h : ws.Pairwise (· < ·)) :
    (insertAddress a ws).Pairwise (· < ·) := by
  induction ws with
  | nil => simp [insertAddress]
  | cons c rest ih =>
    obtain ⟨hc, hrest⟩ := List.pairwise_cons.mp h
    unfold insertAddress
    split
    · rename_i hlt
      refine List.pairwise_cons.mpr ⟨?_, h⟩
      intro d hd
      rcases List.mem_cons.mp hd with rfl | hd
      · exact hlt
      · exact Nat.lt_trans hlt (hc d hd)
    · split
      · exact h
      · refine List.pairwise_cons.mpr ⟨?_, ih hrest⟩
        intro d hd
        rcases (mem_insertAddress a d rest).mp hd with rfl | hd
        · omega
        · exact hc d hd

/-- The written set after a store: the addresses before it and those of the store. -/
theorem mem_insertAddresses (n : Nat) : ∀ (p b : Nat) (ws : List Nat),
    b ∈ insertAddresses p n ws ↔ (p ≤ b ∧ b < p + n) ∨ b ∈ ws := by
  induction n with
  | zero =>
    intro p b ws
    refine ⟨.inr, ?_⟩
    rintro (h | h)
    · omega
    · exact h
  | succ n ih =>
    intro p b ws
    rw [insertAddresses, ih, mem_insertAddress]
    constructor
    · rintro (h | h | h)
      · exact .inl (by omega)
      · exact .inl (by omega)
      · exact .inr h
    · rintro (h | h)
      · by_cases hb : b = p
        · exact .inr (.inl hb)
        · exact .inl (by omega)
      · exact .inr (.inr h)

theorem insertAddresses_pairwise (n : Nat) : ∀ (p : Nat) (ws : List Nat), ws.Pairwise (· < ·) →
    (insertAddresses p n ws).Pairwise (· < ·) := by
  induction n with
  | zero => exact fun p ws h => h
  | succ n ih => exact fun p ws h => ih (p + 1) _ (insertAddress_pairwise p ws h)

end Sys2Proof.Machine
end

