-- ==== Sys2Proof/Laws/State.lean ====
section
/-!
SUPPORT. The small lemmas of State: one per field per update, and the general registers as R21 has them.
-/

namespace Sys2Proof.Machine

/-! ### `setX` -/

theorem State.setX_eq (s : State) (r : RegId) (v : Word) : ∃ g, s.setX r v = { s with gpr := g } := by
  unfold State.setX; split
  · exact ⟨s.gpr, rfl⟩
  · exact ⟨_, rfl⟩

@[simp] theorem State.setX_params (s : State) (r : RegId) (v : Word) : (s.setX r v).params = s.params := by
  obtain ⟨g, h⟩ := s.setX_eq r v; rw [h]
@[simp] theorem State.setX_pc (s : State) (r : RegId) (v : Word) : (s.setX r v).pc = s.pc := by
  obtain ⟨g, h⟩ := s.setX_eq r v; rw [h]
@[simp] theorem State.setX_npc (s : State) (r : RegId) (v : Word) : (s.setX r v).npc = s.npc := by
  obtain ⟨g, h⟩ := s.setX_eq r v; rw [h]
@[simp] theorem State.setX_ds (s : State) (r : RegId) (v : Word) : (s.setX r v).ds = s.ds := by
  obtain ⟨g, h⟩ := s.setX_eq r v; rw [h]
@[simp] theorem State.setX_ld (s : State) (r : RegId) (v : Word) : (s.setX r v).ld = s.ld := by
  obtain ⟨g, h⟩ := s.setX_eq r v; rw [h]
@[simp] theorem State.setX_mem (s : State) (r : RegId) (v : Word) : (s.setX r v).mem = s.mem := by
  obtain ⟨g, h⟩ := s.setX_eq r v; rw [h]
@[simp] theorem State.setX_written (s : State) (r : RegId) (v : Word) : (s.setX r v).written = s.written := by
  obtain ⟨g, h⟩ := s.setX_eq r v; rw [h]

/-- Register 0 reads as zero in every state (R21). -/
@[simp] theorem State.x_zero (s : State) : s.x 0#5 = 0#32 := rfl

/-- A write to register 0 is discarded (R21). -/
@[simp] theorem State.setX_zero (s : State) (v : Word) : s.setX 0#5 v = s := rfl

theorem RegId.toNat_pos {r : RegId} (h : r ≠ 0#5) : 0 < r.toNat := by
  rcases Nat.eq_zero_or_pos r.toNat with h0 | h0
  · exact absurd (BitVec.eq_of_toNat_eq (by simpa using h0)) h
  · exact h0

/-- What every register reads after a register write (R20, R21). -/
theorem State.x_setX (s : State) (r : RegId) (v : Word) (q : RegId) :
    (s.setX r v).x q = if q = 0#5 then 0#32 else if q = r then v else s.x q := by
  by_cases hq : q = 0#5
  · simp [hq]
  · by_cases hr : r = 0#5
    · subst hr; simp [hq]
    · have hq' := RegId.toNat_pos hq
      have hr' := RegId.toNat_pos hr
      by_cases hqr : q = r
      · subst hqr; simp [State.x, State.setX, hq]
      · have hne : r.toNat - 1 ≠ q.toNat - 1 := by
          intro h
          exact hqr (BitVec.eq_of_toNat_eq (by omega))
        simp [State.x, State.setX, hq, hr, hqr, Vector.getElem_set_ne, hne]

/-- The registers determine the cells behind them: two states that agree on every register and every other field are the
same. -/
theorem State.gpr_ext {g g' : Vector Word 31} (s : State)
    (h : ∀ r, ({ s with gpr := g } : State).x r = ({ s with gpr := g' } : State).x r) : g = g' := by
  apply Vector.ext
  intro k hk
  have hr := h (BitVec.ofNat 5 (k + 1))
  have hne : BitVec.ofNat 5 (k + 1) ≠ 0#5 := by
    intro h0
    have := congrArg BitVec.toNat h0
    simp only [BitVec.toNat_ofNat] at this
    omega
  have hn : (k + 1) % 32 - 1 = k := by omega
  simpa [State.x, hne, hn] using hr

/-- Two register writes to different registers commute. -/
theorem State.setX_comm (s : State) {r q : RegId} (v u : Word) (h : r ≠ q) :
    (s.setX r v).setX q u = (s.setX q u).setX r v := by
  by_cases hr : r = 0#5
  · subst hr; rfl
  · by_cases hq : q = 0#5
    · subst hq; rfl
    · have hq' := RegId.toNat_pos hq
      have hr' := RegId.toNat_pos hr
      have hne : r.toNat - 1 ≠ q.toNat - 1 := fun h' => h (BitVec.eq_of_toNat_eq (by omega))
      simp [State.setX, hr, hq, Vector.set_comm _ _ hne]

/-- Of two writes to one register the second remains. -/
theorem State.setX_setX (s : State) (r : RegId) (v u : Word) : (s.setX r v).setX r u = s.setX r u := by
  unfold State.setX; split <;> simp

/-! ### The ends of a step -/

@[simp] theorem State.advance_params (s : State) : s.advance.params = s.params := rfl
@[simp] theorem State.advance_gpr (s : State) : s.advance.gpr = s.gpr := rfl
@[simp] theorem State.advance_x (s : State) (r : RegId) : s.advance.x r = s.x r := rfl
@[simp] theorem State.advance_pc (s : State) : s.advance.pc = s.npc := rfl
@[simp] theorem State.advance_npc (s : State) : s.advance.npc = s.npc + 4#32 := rfl
@[simp] theorem State.advance_ds (s : State) : s.advance.ds = false := rfl
@[simp] theorem State.advance_ld (s : State) : s.advance.ld = none := rfl
@[simp] theorem State.advance_mem (s : State) : s.advance.mem = s.mem := rfl
@[simp] theorem State.advance_written (s : State) : s.advance.written = s.written := rfl

@[simp] theorem State.advanceLoad_params (s : State) (rt : RegId) : (s.advanceLoad rt).params = s.params := rfl
@[simp] theorem State.advanceLoad_gpr (s : State) (rt : RegId) : (s.advanceLoad rt).gpr = s.gpr := rfl
@[simp] theorem State.advanceLoad_x (s : State) (rt r : RegId) : (s.advanceLoad rt).x r = s.x r := rfl
@[simp] theorem State.advanceLoad_pc (s : State) (rt : RegId) : (s.advanceLoad rt).pc = s.npc := rfl
@[simp] theorem State.advanceLoad_npc (s : State) (rt : RegId) : (s.advanceLoad rt).npc = s.npc + 4#32 := rfl
@[simp] theorem State.advanceLoad_ds (s : State) (rt : RegId) : (s.advanceLoad rt).ds = false := rfl
@[simp] theorem State.advanceLoad_ld (s : State) (rt : RegId) :
    (s.advanceLoad rt).ld = if rt = 0#5 then none else some rt := rfl
@[simp] theorem State.advanceLoad_mem (s : State) (rt : RegId) : (s.advanceLoad rt).mem = s.mem := rfl
@[simp] theorem State.advanceLoad_written (s : State) (rt : RegId) : (s.advanceLoad rt).written = s.written := rfl

@[simp] theorem State.advanceTransfer_params (s : State) (o : Option Word) :
    (s.advanceTransfer o).params = s.params := rfl
@[simp] theorem State.advanceTransfer_gpr (s : State) (o : Option Word) : (s.advanceTransfer o).gpr = s.gpr := rfl
@[simp] theorem State.advanceTransfer_x (s : State) (o : Option Word) (r : RegId) :
    (s.advanceTransfer o).x r = s.x r := rfl
@[simp] theorem State.advanceTransfer_pc (s : State) (o : Option Word) : (s.advanceTransfer o).pc = s.npc := rfl
@[simp] theorem State.advanceTransfer_npc (s : State) (o : Option Word) :
    (s.advanceTransfer o).npc = o.getD (s.npc + 4#32) := rfl
@[simp] theorem State.advanceTransfer_ds (s : State) (o : Option Word) : (s.advanceTransfer o).ds = true := rfl
@[simp] theorem State.advanceTransfer_ld (s : State) (o : Option Word) : (s.advanceTransfer o).ld = none := rfl
@[simp] theorem State.advanceTransfer_mem (s : State) (o : Option Word) : (s.advanceTransfer o).mem = s.mem := rfl
@[simp] theorem State.advanceTransfer_written (s : State) (o : Option Word) :
    (s.advanceTransfer o).written = s.written := rfl

/-! ### `storeAt` -/

variable (s : State) (p : Nat) (n : AccessSize) (d : BitVec n.bits)

@[simp] theorem State.storeAt_params : (s.storeAt p n d).params = s.params := rfl
@[simp] theorem State.storeAt_gpr : (s.storeAt p n d).gpr = s.gpr := rfl
@[simp] theorem State.storeAt_x (r : RegId) : (s.storeAt p n d).x r = s.x r := rfl
@[simp] theorem State.storeAt_pc : (s.storeAt p n d).pc = s.pc := rfl
@[simp] theorem State.storeAt_npc : (s.storeAt p n d).npc = s.npc := rfl
@[simp] theorem State.storeAt_ds : (s.storeAt p n d).ds = s.ds := rfl
@[simp] theorem State.storeAt_ld : (s.storeAt p n d).ld = s.ld := rfl
@[simp] theorem State.storeAt_mem :
    (s.storeAt p n d).mem = s.mem.writeBytes p (storeBytes s.bigEndianCPU n d) := rfl
@[simp] theorem State.storeAt_written :
    (s.storeAt p n d).written = insertAddresses p n.bytes s.written := rfl

end Sys2Proof.Machine
end

