-- ==== Sys2Proof/Laws/Ops.lean ====
section
/-!
SUPPORT. For each shared operation, one lemma that says all it can do: where an access lands, MemRead, MemWrite, FetchWord,
raising, the shared shapes of meanings, and what `exec` answers when it answers a next state.
-/

namespace Sys2Proof.Machine

/-! ### Existence, alignment, location -/

theorem addressesExist_iff (p : Params) (a n : Nat) :
    addressesExist p a n = true ↔ ∀ k < n, addressExists p (a + k) = true := by
  simp [addressesExist]

theorem aligned_iff (n : AccessSize) (v : Word) : aligned n v = true ↔ v.toNat % n.bytes = 0 := by
  simp [aligned]

@[simp] theorem aligned_byte (v : Word) : aligned .byte v = true := by simp [aligned, AccessSize.bytes]; omega

/-- Where an access lands, when it lands. -/
theorem locate_ok_iff {s : State} {v : Word} {n : AccessSize} {iord : IorD} {lors : LorS} {p : Nat} :
    locate s v n iord lors = .ok p ↔
      aligned n v = true ∧ addressTranslation s.params.translation v iord lors = .ok p
        ∧ addressesExist s.params p n.bytes = true := by
  cases ha : aligned n v with
  | false => simp [locate, ha]
  | true =>
    cases ht : addressTranslation s.params.translation v iord lors with
    | error e => simp [locate, ha, ht]
    | ok q =>
      cases he : addressesExist s.params q n.bytes with
      | false =>
        simp only [locate, ha, ht, he, if_true, Bool.false_eq_true, if_false, reduceCtorEq, Except.ok.injEq, true_and,
          false_iff, not_and]
        rintro rfl; simp [he]
      | true =>
        simp only [locate, ha, ht, he, if_true, Except.ok.injEq, true_and]
        exact ⟨fun h => ⟨h, h ▸ he⟩, And.left⟩

/-- The exception of an access that does not land, in the order of the tests. -/
theorem locate_error_iff {s : State} {v : Word} {n : AccessSize} {iord : IorD} {lors : LorS} {e : Exception} :
    locate s v n iord lors = .error e ↔
      (aligned n v = false ∧ e = .addressError (accessKind iord lors) v)
      ∨ (aligned n v = true ∧ addressTranslation s.params.translation v iord lors = .error e)
      ∨ (∃ p, aligned n v = true ∧ addressTranslation s.params.translation v iord lors = .ok p
          ∧ addressesExist s.params p n.bytes = false ∧ e = .busError (accessKind iord lors) v) := by
  cases ha : aligned n v with
  | false => simp [locate, ha, @eq_comm _ e]
  | true =>
    cases ht : addressTranslation s.params.translation v iord lors with
    | error e' => simp [locate, ha, ht]
    | ok q => cases he : addressesExist s.params q n.bytes <;> simp [locate, ha, ht, he, @eq_comm _ e]

/-- A located access depends on the parameters alone. -/
theorem locate_congr {s t : State} (h : t.params = s.params) (v : Word) (n : AccessSize) (iord : IorD) (lors : LorS) :
    locate t v n iord lors = locate s v n iord lors := by
  unfold locate; rw [h]

/-! ### MemRead, MemWrite, FetchWord -/

theorem memRead_ok_iff {s : State} {v : Word} {n : AccessSize} {d : BitVec n.bits} :
    memRead s v n = .ok d ↔ ∃ p, locate s v n .data .load = .ok p ∧ d = s.valueAt p n := by
  cases h : locate s v n .data .load <;> simp [memRead, h, eq_comm]

theorem memRead_error_iff {s : State} {v : Word} {n : AccessSize} {e : Exception} :
    memRead s v n = .error e ↔ locate s v n .data .load = .error e := by
  cases h : locate s v n .data .load <;> simp [memRead, h]

theorem memWrite_ok_iff {s t : State} {v : Word} {n : AccessSize} {d : BitVec n.bits} :
    memWrite s v n d = .ok t ↔ ∃ p, locate s v n .data .store = .ok p ∧ t = s.storeAt p n d := by
  cases h : locate s v n .data .store <;> simp [memWrite, h, eq_comm]

theorem memWrite_error_iff {s : State} {v : Word} {n : AccessSize} {d : BitVec n.bits} {e : Exception} :
    memWrite s v n d = .error e ↔ locate s v n .data .store = .error e := by
  cases h : locate s v n .data .store <;> simp [memWrite, h]

theorem writtenTest_iff (s : State) (p : Nat) :
    (List.range 4).any (fun k => s.written.contains (p + k)) = false ↔ ∀ k < 4, p + k ∉ s.written := by
  simp [List.any_eq_false]

theorem fetchWord_next_iff {s : State} {w : Word} :
    fetchWord s = .next w ↔
      ∃ p, locate s s.pc .word .instruction .load = .ok p ∧ (∀ k < 4, p + k ∉ s.written) ∧ w = s.valueAt p .word := by
  cases h : locate s s.pc .word .instruction .load with
  | error e => simp [fetchWord, h, raise]
  | ok p =>
    simp only [Except.ok.injEq, ← writtenTest_iff]
    cases hw : (List.range 4).any (fun k => s.written.contains (p + k)) with
    | true =>
      simp only [fetchWord, h, hw, if_true, reduceCtorEq, false_iff, not_exists, not_and]
      rintro q rfl hq
      exact absurd (hw.symm.trans hq) (by simp)
    | false =>
      simp only [fetchWord, h, hw, Bool.false_eq_true, if_false, Host.Outcome.next.injEq]
      exact ⟨fun e => ⟨p, rfl, hw, e.symm⟩, fun ⟨q, e1, _, e2⟩ => by rw [e2, e1]⟩

theorem fetchWord_fault_iff {s : State} {f : Fault} :
    fetchWord s = .fault f ↔
      ∃ e, locate s s.pc .word .instruction .load = .error e ∧ f = .trap e s.restartAddress s.ds s := by
  cases h : locate s s.pc .word .instruction .load with
  | error e => simp [fetchWord, h, raise, eq_comm]
  | ok p =>
    cases hw : (List.range 4).any (fun k => s.written.contains (p + k)) <;> simp only [fetchWord, h, hw] <;> simp

theorem length_storeBytes (be : Bool) (n : AccessSize) (d : BitVec n.bits) : (storeBytes be n d).length = n.bytes := by
  simp [storeBytes]

theorem getElem_storeBytes (be : Bool) (n : AccessSize) (d : BitVec n.bits) (k : Nat)
    (h : k < (storeBytes be n d).length) : (storeBytes be n d)[k] = byteOf be n.bytes d k := by
  simp [storeBytes]

/-- A store leaves every byte outside it alone. -/
theorem State.read_storeAt_outside (s : State) (p : Nat) (n : AccessSize) (d : BitVec n.bits) {a : Nat}
    (h : a < p ∨ p + n.bytes ≤ a) : (s.storeAt p n d).mem.read a = s.mem.read a :=
  Memory.read_writeBytes_outside _ _ _ (by rwa [length_storeBytes])

/-- A store puts its bytes where it says. -/
theorem State.read_storeAt_inside (s : State) (hm : s.mem.wf) (p : Nat) (n : AccessSize) (d : BitVec n.bits) {k : Nat}
    (h : k < n.bytes) : (s.storeAt p n d).mem.read (p + k) = byteOf s.bigEndianCPU n.bytes d k := by
  rw [State.storeAt_mem, Memory.read_writeBytes_inside _ _ hm _ _ (by rwa [length_storeBytes]), getElem_storeBytes]

theorem State.storeAt_wf (s : State) (hm : s.mem.wf) (p : Nat) (n : AccessSize) (d : BitVec n.bits) :
    (s.storeAt p n d).mem.wf :=
  Memory.writeBytes_wf _ _ hm _

theorem extract_append_half (d : BitVec 16) : d.extractLsb' 8 8 ++ d.extractLsb' 0 8 = d := by
  apply BitVec.eq_of_getLsbD_eq
  intro i hi
  simp only [BitVec.getLsbD_append, BitVec.getLsbD_extractLsb']
  by_cases h : i < 8
  · simp [h]
  · simp [h, show i - 8 < 8 by omega, show 8 + (i - 8) = i by omega]

theorem extract_append_word (d : BitVec 32) :
    d.extractLsb' 24 8 ++ d.extractLsb' 16 8 ++ d.extractLsb' 8 8 ++ d.extractLsb' 0 8 = d := by
  apply BitVec.eq_of_getLsbD_eq
  intro i hi
  simp only [BitVec.getLsbD_append, BitVec.getLsbD_extractLsb']
  by_cases h : i < 8
  · simp [h]
  · by_cases h' : i < 16
    · simp [h, show i - 8 < 8 by omega, show 8 + (i - 8) = i by omega]
    · by_cases h'' : i < 24
      · simp [h, show ¬i - 8 < 8 by omega, show i - 8 - 8 < 8 by omega, show 16 + (i - 8 - 8) = i by omega]
      · simp [h, show ¬i - 8 < 8 by omega, show ¬i - 8 - 8 < 8 by omega, show i - 8 - 8 - 8 < 8 by omega,
          show 24 + (i - 8 - 8 - 8) = i by omega]

theorem assemble_byteOf_byte (be : Bool) (d : BitVec 8) : assemble be (byteOf be 1 d) .byte = d := by
  cases be <;> exact BitVec.extractLsb'_eq_self

theorem assemble_byteOf_half (be : Bool) (d : BitVec 16) : assemble be (byteOf be 2 d) .half = d := by
  cases be <;> exact extract_append_half d

theorem assemble_byteOf_word (be : Bool) (d : BitVec 32) : assemble be (byteOf be 4 d) .word = d := by
  cases be <;> exact extract_append_word d

/-- The bytes `byteOf` takes from a value, `assemble` joins to that value again, in either byte order (R40, R47). -/
theorem assemble_byteOf (be : Bool) (n : AccessSize) (d : BitVec n.bits) :
    assemble be (byteOf be n.bytes d) n = d := by
  cases n with
  | byte => exact assemble_byteOf_byte be d
  | half => exact assemble_byteOf_half be d
  | word => exact assemble_byteOf_word be d

/-! ### The shared shapes of meanings -/

@[simp] theorem raise_ne_next {α : Type} (e : Exception) (s : State) (t : α) : raise e s ≠ .next t := by
  simp [raise]

theorem writeResult_eq (r : RegId) (v : Word) (s : State) : writeResult r v s = .next (s.setX r v).advance := rfl

theorem writeUnlessOverflow_next_iff {o : Bool} {r : RegId} {v : Word} {s t : State} :
    writeUnlessOverflow o r v s = .next t ↔ o = false ∧ t = (s.setX r v).advance := by
  cases o <;> simp [writeUnlessOverflow, writeResult, raise, eq_comm]

theorem loadWith_next_iff {n : AccessSize} {f : BitVec n.bits → Word} {rt base : RegId} {offset : BitVec 16}
    {s t : State} :
    loadWith n f rt offset base s = .next t ↔
      ∃ p, locate s (effectiveAddress offset base s) n .data .load = .ok p
        ∧ t = (s.setX rt (f (s.valueAt p n))).advanceLoad rt := by
  cases h : locate s (effectiveAddress offset base s) n .data .load <;> simp [loadWith, memRead, h, raise, eq_comm]

theorem storeWith_next_iff {n : AccessSize} {rt base : RegId} {offset : BitVec 16} {s t : State} :
    storeWith n rt offset base s = .next t ↔
      ∃ p, locate s (effectiveAddress offset base s) n .data .store = .ok p
        ∧ t = (s.storeAt p n ((s.x rt).extractLsb' 0 n.bits)).advance := by
  cases h : locate s (effectiveAddress offset base s) n .data .store <;>
    simp [storeWith, memWrite, h, raise, eq_comm]

/-! ### What `exec` can answer -/

/-- The four shapes of a next state. -/
inductive ExecNext (i : Instr) (s : State) : State → Prop where
  | result (r : RegId) (v : Word) (hw : writes i = some r) (hc : isControlTransfer i = false) :
      ExecNext i s (s.setX r v).advance
  | load (r : RegId) (v : Word) (hw : writes i = some r) (hc : isControlTransfer i = false) :
      ExecNext i s ((s.setX r v).advanceLoad r)
  | store (v : Word) (n : AccessSize) (p : Nat) (d : BitVec n.bits) (hw : writes i = none)
      (hc : isControlTransfer i = false) (hl : locate s v n .data .store = .ok p) :
      ExecNext i s (s.storeAt p n d).advance
  | transfer (o : Option Word) (hw : writes i = none) (hc : isControlTransfer i = true) :
      ExecNext i s (s.advanceTransfer o)
  | link (r : RegId) (v : Word) (o : Option Word) (hw : writes i = some r) (hc : isControlTransfer i = true) :
      ExecNext i s ((s.setX r v).advanceTransfer o)

/-- If `exec` answers a next state, it has one of the four shapes; later proofs cite this instead of unfolding `exec`. -/
theorem exec_next_cases {i : Instr} {s t : State} (h : exec i s = .next t) : ExecNext i s t := by
  cases i <;>
    simp only [exec, execAdd, execAddi, execAddu, execSub, execSubu, execSlt, execSlti, execAnd, execAndi, execLui,
      execNor, execOr, execOri, execXor, execXori, execSll, execSllv, execSra, execSrav, execSrl, execSrlv, execBeq,
      execBne, execJ, execJal, execJalr, execJr, execLb, execLbu, execLh, execLhu, execLw, execLwu, execSb, execSh,
      execSw, branchWhen, writeUnlessOverflow_next_iff, loadWith_next_iff, storeWith_next_iff, writeResult_eq,
      Host.Outcome.next.injEq, raise_ne_next] at h
  case jalr rd rs =>
    split at h
    · exact absurd h (by simp)
    · rw [Host.Outcome.next.injEq] at h; subst h; exact .link _ _ _ rfl rfl
  case jal => subst h; exact .link _ _ _ rfl rfl
  case lb | lbu | lh | lhu | lw => obtain ⟨p, -, rfl⟩ := h; exact .load _ _ rfl rfl
  case sb | sh | sw => obtain ⟨p, hl, rfl⟩ := h; exact .store _ _ _ _ rfl rfl hl
  case beq | bne | j | jr => subst h; exact .transfer _ rfl rfl
  case add | addi | sub => obtain ⟨-, rfl⟩ := h; exact .result _ _ rfl rfl
  all_goals first
    | (subst h; exact .result _ _ rfl rfl)

end Sys2Proof.Machine
end

