-- ==== Sys2Proof/Laws/PerInstr.lean ====
section
/-!
SUPPORT. Facts about each instruction as syntax, one lemma per constructor of `Instr`: its word belongs to its own row of
the opcode table (R82, R86).
-/

namespace Sys2Proof.Laws.MatchesRow

/-- The word of the instruction belongs to the row of the opcode table that carries its mnemonic. -/
def Statement (i : Instr) : Prop :=
  ∃ r ∈ opcodeRows, r.mnemonic = i.mnemonic ∧ r.matches (encode i)

theorem add (rd rs rt : RegId) : Statement (.add rd rs rt) :=
  ⟨⟨"ADD", 0x00000020#32, 0xFC0007FF#32⟩, by decide, rfl, encodeReg3_mask _ _ _ _⟩

theorem addi (rt rs : RegId) (immediate : BitVec 16) : Statement (.addi rt rs immediate) :=
  ⟨⟨"ADDI", 0x20000000#32, 0xFC000000#32⟩, by decide, rfl, encodeImm_mask _ _ _ _⟩

theorem addu (rd rs rt : RegId) : Statement (.addu rd rs rt) :=
  ⟨⟨"ADDU", 0x00000021#32, 0xFC0007FF#32⟩, by decide, rfl, encodeReg3_mask _ _ _ _⟩

theorem and (rd rs rt : RegId) : Statement (.and rd rs rt) :=
  ⟨⟨"AND", 0x00000024#32, 0xFC0007FF#32⟩, by decide, rfl, encodeReg3_mask _ _ _ _⟩

theorem andi (rt rs : RegId) (immediate : BitVec 16) : Statement (.andi rt rs immediate) :=
  ⟨⟨"ANDI", 0x30000000#32, 0xFC000000#32⟩, by decide, rfl, encodeImm_mask _ _ _ _⟩

theorem beq (rs rt : RegId) (offset : BitVec 16) : Statement (.beq rs rt offset) :=
  ⟨⟨"BEQ", 0x10000000#32, 0xFC000000#32⟩, by decide, rfl, encodeImm_mask _ _ _ _⟩

theorem bne (rs rt : RegId) (offset : BitVec 16) : Statement (.bne rs rt offset) :=
  ⟨⟨"BNE", 0x14000000#32, 0xFC000000#32⟩, by decide, rfl, encodeImm_mask _ _ _ _⟩

theorem j (index : BitVec 26) : Statement (.j index) :=
  ⟨⟨"J", 0x08000000#32, 0xFC000000#32⟩, by decide, rfl, encodeJump_mask _ _⟩

theorem jal (index : BitVec 26) : Statement (.jal index) :=
  ⟨⟨"JAL", 0x0C000000#32, 0xFC000000#32⟩, by decide, rfl, encodeJump_mask _ _⟩

theorem jalr (rd rs : RegId) : Statement (.jalr rd rs) :=
  ⟨⟨"JALR", 0x00000009#32, 0xFC1F07FF#32⟩, by decide, rfl, encodeReg3_mask_link _ _ _⟩

theorem jr (rs : RegId) : Statement (.jr rs) :=
  ⟨⟨"JR", 0x00000008#32, 0xFC1FFFFF#32⟩, by decide, rfl, encodeReg3_mask_jump _ _⟩

theorem lb (rt : RegId) (offset : BitVec 16) (base : RegId) : Statement (.lb rt offset base) :=
  ⟨⟨"LB", 0x80000000#32, 0xFC000000#32⟩, by decide, rfl, encodeImm_mask _ _ _ _⟩

theorem lbu (rt : RegId) (offset : BitVec 16) (base : RegId) : Statement (.lbu rt offset base) :=
  ⟨⟨"LBU", 0x90000000#32, 0xFC000000#32⟩, by decide, rfl, encodeImm_mask _ _ _ _⟩

theorem lh (rt : RegId) (offset : BitVec 16) (base : RegId) : Statement (.lh rt offset base) :=
  ⟨⟨"LH", 0x84000000#32, 0xFC000000#32⟩, by decide, rfl, encodeImm_mask _ _ _ _⟩

theorem lhu (rt : RegId) (offset : BitVec 16) (base : RegId) : Statement (.lhu rt offset base) :=
  ⟨⟨"LHU", 0x94000000#32, 0xFC000000#32⟩, by decide, rfl, encodeImm_mask _ _ _ _⟩

theorem lui (rt : RegId) (immediate : BitVec 16) : Statement (.lui rt immediate) :=
  ⟨⟨"LUI", 0x3C000000#32, 0xFFE00000#32⟩, by decide, rfl, encodeImm_mask_upper _ _ _⟩

theorem lw (rt : RegId) (offset : BitVec 16) (base : RegId) : Statement (.lw rt offset base) :=
  ⟨⟨"LW", 0x8C000000#32, 0xFC000000#32⟩, by decide, rfl, encodeImm_mask _ _ _ _⟩

theorem lwu (rt : RegId) (offset : BitVec 16) (base : RegId) : Statement (.lwu rt offset base) :=
  ⟨⟨"LWU", 0x9C000000#32, 0xFC000000#32⟩, by decide, rfl, encodeImm_mask _ _ _ _⟩

theorem nor (rd rs rt : RegId) : Statement (.nor rd rs rt) :=
  ⟨⟨"NOR", 0x00000027#32, 0xFC0007FF#32⟩, by decide, rfl, encodeReg3_mask _ _ _ _⟩

theorem or (rd rs rt : RegId) : Statement (.or rd rs rt) :=
  ⟨⟨"OR", 0x00000025#32, 0xFC0007FF#32⟩, by decide, rfl, encodeReg3_mask _ _ _ _⟩

theorem ori (rt rs : RegId) (immediate : BitVec 16) : Statement (.ori rt rs immediate) :=
  ⟨⟨"ORI", 0x34000000#32, 0xFC000000#32⟩, by decide, rfl, encodeImm_mask _ _ _ _⟩

theorem sb (rt : RegId) (offset : BitVec 16) (base : RegId) : Statement (.sb rt offset base) :=
  ⟨⟨"SB", 0xA0000000#32, 0xFC000000#32⟩, by decide, rfl, encodeImm_mask _ _ _ _⟩

theorem sh (rt : RegId) (offset : BitVec 16) (base : RegId) : Statement (.sh rt offset base) :=
  ⟨⟨"SH", 0xA4000000#32, 0xFC000000#32⟩, by decide, rfl, encodeImm_mask _ _ _ _⟩

theorem sll (rd rt : RegId) (sa : BitVec 5) : Statement (.sll rd rt sa) :=
  ⟨⟨"SLL", 0x00000000#32, 0xFFE0003F#32⟩, by decide, rfl, encodeShift_mask _ _ _ _⟩

theorem sllv (rd rt rs : RegId) : Statement (.sllv rd rt rs) :=
  ⟨⟨"SLLV", 0x00000004#32, 0xFC0007FF#32⟩, by decide, rfl, encodeReg3_mask _ _ _ _⟩

theorem slt (rd rs rt : RegId) : Statement (.slt rd rs rt) :=
  ⟨⟨"SLT", 0x0000002A#32, 0xFC0007FF#32⟩, by decide, rfl, encodeReg3_mask _ _ _ _⟩

theorem slti (rt rs : RegId) (immediate : BitVec 16) : Statement (.slti rt rs immediate) :=
  ⟨⟨"SLTI", 0x28000000#32, 0xFC000000#32⟩, by decide, rfl, encodeImm_mask _ _ _ _⟩

theorem sra (rd rt : RegId) (sa : BitVec 5) : Statement (.sra rd rt sa) :=
  ⟨⟨"SRA", 0x00000003#32, 0xFFE0003F#32⟩, by decide, rfl, encodeShift_mask _ _ _ _⟩

theorem srav (rd rt rs : RegId) : Statement (.srav rd rt rs) :=
  ⟨⟨"SRAV", 0x00000007#32, 0xFC0007FF#32⟩, by decide, rfl, encodeReg3_mask _ _ _ _⟩

theorem srl (rd rt : RegId) (sa : BitVec 5) : Statement (.srl rd rt sa) :=
  ⟨⟨"SRL", 0x00000002#32, 0xFFE0003F#32⟩, by decide, rfl, encodeShift_mask _ _ _ _⟩

theorem srlv (rd rt rs : RegId) : Statement (.srlv rd rt rs) :=
  ⟨⟨"SRLV", 0x00000006#32, 0xFC0007FF#32⟩, by decide, rfl, encodeReg3_mask _ _ _ _⟩

theorem sub (rd rs rt : RegId) : Statement (.sub rd rs rt) :=
  ⟨⟨"SUB", 0x00000022#32, 0xFC0007FF#32⟩, by decide, rfl, encodeReg3_mask _ _ _ _⟩

theorem subu (rd rs rt : RegId) : Statement (.subu rd rs rt) :=
  ⟨⟨"SUBU", 0x00000023#32, 0xFC0007FF#32⟩, by decide, rfl, encodeReg3_mask _ _ _ _⟩

theorem sw (rt : RegId) (offset : BitVec 16) (base : RegId) : Statement (.sw rt offset base) :=
  ⟨⟨"SW", 0xAC000000#32, 0xFC000000#32⟩, by decide, rfl, encodeImm_mask _ _ _ _⟩

theorem xor (rd rs rt : RegId) : Statement (.xor rd rs rt) :=
  ⟨⟨"XOR", 0x00000026#32, 0xFC0007FF#32⟩, by decide, rfl, encodeReg3_mask _ _ _ _⟩

theorem xori (rt rs : RegId) (immediate : BitVec 16) : Statement (.xori rt rs immediate) :=
  ⟨⟨"XORI", 0x38000000#32, 0xFC000000#32⟩, by decide, rfl, encodeImm_mask _ _ _ _⟩

end Sys2Proof.Laws.MatchesRow
end

