-- ==== Sys2Proof/Laws/Step.lean ====
section
/-!
SUPPORT. What one step can do, said once (R24): the inversion lemmas every claim about `step` starts from.
-/

namespace Sys2Proof.Machine

theorem hazard_eq_none_iff {i : Instr} {s : State} :
    hazard i s = none ↔ (isControlTransfer i = true → s.ds = false) ∧ ∀ r, s.ld = some r → r ∉ reads i := by
  unfold hazard
  cases hd : s.ds <;> cases hc : isControlTransfer i <;> cases hl : s.ld <;> simp

theorem runWord_next_iff {w : Word} {s t : State} :
    runWord w s = .next t ↔ ∃ i, decodeWord w = .ok i ∧ hazard i s = none ∧ exec i s = .next t := by
  unfold runWord
  cases hd : decodeWord w with
  | error e => simp
  | ok i => cases hh : hazard i s <;> simp [hh]

theorem runWord_fault_iff {w : Word} {s : State} {f : Fault} :
    runWord w s = .fault f ↔ ∃ i, decodeWord w = .ok i ∧ hazard i s = none ∧ exec i s = .fault f := by
  unfold runWord
  cases hd : decodeWord w with
  | error e => simp
  | ok i => cases hh : hazard i s <;> simp [hh]

/-- If a step answers a next state, the run was over and stays, or an instruction was fetched, decoded and run. -/
theorem step_next_iff {s t : State} :
    step s = .next t ↔
      (s.done = true ∧ t = s) ∨
      (s.done = false ∧ ∃ w i, fetchWord s = .next w ∧ decodeWord w = .ok i ∧ hazard i s = none
        ∧ exec i s = .next t) := by
  unfold step
  cases hd : s.done
  · simp only [Bool.false_eq_true, if_false, false_and, true_and, false_or]
    cases hf : fetchWord s with
    | next w => simp [runWord_next_iff]
    | fault f => simp
    | refused r => simp
  · simp [eq_comm]

/-- If a step faults, the fetch raised or the instruction did. -/
theorem step_fault_iff {s : State} {f : Fault} :
    step s = .fault f ↔
      s.done = false ∧ (fetchWord s = .fault f ∨ ∃ w i, fetchWord s = .next w ∧ decodeWord w = .ok i
        ∧ hazard i s = none ∧ exec i s = .fault f) := by
  unfold step
  cases hd : s.done
  · simp only [Bool.false_eq_true, if_false, true_and]
    cases hf : fetchWord s with
    | next w => simp [runWord_fault_iff]
    | fault f => simp
    | refused r => simp
  · simp

end Sys2Proof.Machine
end

