-- ==== Sys2Proof/WellFormed.lean ====
section
/-!
DEFINITION. When an instruction is well formed. The types of `Instr` already hold every field to its width (R71), so the
one check left is the one restriction the spec puts on the operands of an instruction of this hardware (R145).
-/

namespace Sys2Proof

/-- "Register specifiers rs and rd must not be equal" (JALR, R145), also when both are 0 (U2). No other page restricts
its operands. An ill-formed JALR still decodes; it is refused when it executes. -/
def Instr.wellFormed : Instr → Bool
  | .jalr rd rs => rs != rd
  | .add _ _ _ | .addi _ _ _ | .addu _ _ _ | .and _ _ _ | .andi _ _ _ | .beq _ _ _ | .bne _ _ _ | .j _ | .jal _
  | .jr _ | .lb _ _ _ | .lbu _ _ _ | .lh _ _ _ | .lhu _ _ _ | .lui _ _ | .lw _ _ _ | .lwu _ _ _ | .nor _ _ _
  | .or _ _ _ | .ori _ _ _ | .sb _ _ _ | .sh _ _ _ | .sll _ _ _ | .sllv _ _ _ | .slt _ _ _ | .slti _ _ _
  | .sra _ _ _ | .srav _ _ _ | .srl _ _ _ | .srlv _ _ _ | .sub _ _ _ | .subu _ _ _ | .sw _ _ _ | .xor _ _ _
  | .xori _ _ _ => true

end Sys2Proof
end

