-- ==== Sys2Proof/Tests/Slice0.lean ====
section
/-!
SUPPORT. Small tests, each on one step, and the witnesses of the obligations. Expected values come from
spec/95_test_vectors.md (sections 2.1 to 2.7) and from the examples of files 40 to 45; encodings are written out from
R82 (fields: opcode, rs, rt, rd, sa, function, or opcode, rs, rt, 16 bits).
-/

namespace Sys2Proof.Tests

open Sys2Proof Sys2Proof.Machine

/-! ### Helpers -/

/-- A launch with the instruction `word` at `pc`, some registers set and some bytes listed. -/
def begin (p : Params) (pc : Word) (word : Nat) (registers : List (RegId × Word)) (bytes : List (Nat × Byte)) : State :=
  let launched := State.launch { p with resetPC := pc } (Vector.replicate 31 0#32)
    { cells := bytes.foldl (fun cells c => writeCells cells c.1 c.2) [] }
  (registers.foldl (fun s r => s.setX r.1 r.2) launched).withFetchWord 32 word

/-- The parameters of the vectors, big-endian. -/
def bigEndian : Params := { Params.default with bigEndianMem := true }

/-- The parameters of section 2.7: only 00001000 to 00002FFF exists. -/
def smallMemory : Params := { Params.default with physMem := [{ first := 0x1000, last := 0x2FFF }] }

/-- One page moved, and one row for each exception a translation may answer. -/
def mapped : Params :=
  { smallMemory with
    translation :=
      { psize := 32
        rows :=
          [{ iord := .data, lors := .load, first := 0x5000#32, last := 0x5FFF#32, mapping := .physical 0x800 },
           { iord := .data, lors := .store, first := 0x5000#32, last := 0x5FFF#32, mapping := .physical 0x800 },
           { iord := .data, lors := .load, first := 0x6000#32, last := 0x6FFF#32, mapping := .tlbRefill },
           { iord := .data, lors := .store, first := 0x6000#32, last := 0x6FFF#32, mapping := .tlbModified },
           { iord := .data, lors := .load, first := 0x7000#32, last := 0x7FFF#32, mapping := .tlbModified },
           { iord := .data, lors := .store, first := 0x7000#32, last := 0x7FFF#32, mapping := .addressError },
           { iord := .instruction, lors := .load, first := 0x8000#32, last := 0x8FFF#32, mapping := .tlbInvalid }] } }

/-- The bytes of section 2.5 at 00002000. -/
def dataBytes : List (Nat × Byte) :=
  [(0x2000, 0x80#8), (0x2001, 0x91#8), (0x2002, 0xA2#8), (0x2003, 0xB3#8),
   (0x2004, 0x04#8), (0x2005, 0x15#8), (0x2006, 0x26#8), (0x2007, 0x37#8)]

/-- A register after the step. -/
def register (s : State) (r : RegId) : Option Word :=
  match step s with
  | .next t => some (t.x r)
  | .fault _ | .refused _ => none

/-- `pc`, `npc` and `ds` after the step. -/
def flow (s : State) : Option (Word × Word × Bool) :=
  match step s with
  | .next t => some (t.pc, t.npc, t.ds)
  | .fault _ | .refused _ => none

/-- Bytes after the step. -/
def bytes (s : State) (a n : Nat) : Option (List Byte) :=
  match step s with
  | .next t => some ((List.range n).map (fun k => t.mem.read (a + k)))
  | .fault _ | .refused _ => none

/-- The trap of the step: cause, `epc`, `bd`. -/
def trap (s : State) : Option (Exception × Word × Bool) :=
  match step s with
  | .fault (.trap e epc bd _) => some (e, epc, bd)
  | .next _ | .refused _ => none

/-- The refusal of the step. -/
def refusal (s : State) : Option Refusal :=
  match step s with
  | .refused r => some r
  | .next _ | .fault _ => none

/-- The instruction a word decodes to. -/
def decoded (w : Word) : Option Instr :=
  match decodeWord w with
  | .ok i => some i
  | .error _ => none

/-! ### Well-formedness -/

theorem test_wf_jalr_same_register_refused : (Instr.jalr 5#5 5#5).wellFormed = false := by decide
theorem test_wf_jalr_zero_zero_refused : (Instr.jalr 0#5 0#5).wellFormed = false := by decide
theorem test_wf_jalr_different_registers : (Instr.jalr 31#5 5#5).wellFormed = true := by decide

/-! ### Decoding, one word a constructor (R82) -/

theorem test_decode_add : decoded 0b000000_00001_00010_00011_00000_100000#32 = some (.add 3#5 1#5 2#5) := by decide
theorem test_decode_addu : decoded 0b000000_00001_00010_00011_00000_100001#32 = some (.addu 3#5 1#5 2#5) := by decide
theorem test_decode_and : decoded 0b000000_00001_00010_00011_00000_100100#32 = some (.and 3#5 1#5 2#5) := by decide
theorem test_decode_nor : decoded 0b000000_00001_00010_00011_00000_100111#32 = some (.nor 3#5 1#5 2#5) := by decide
theorem test_decode_or : decoded 0b000000_00001_00010_00011_00000_100101#32 = some (.or 3#5 1#5 2#5) := by decide
theorem test_decode_slt : decoded 0b000000_00001_00010_00011_00000_101010#32 = some (.slt 3#5 1#5 2#5) := by decide
theorem test_decode_sub : decoded 0b000000_00001_00010_00011_00000_100010#32 = some (.sub 3#5 1#5 2#5) := by decide
theorem test_decode_subu : decoded 0b000000_00001_00010_00011_00000_100011#32 = some (.subu 3#5 1#5 2#5) := by decide
theorem test_decode_xor : decoded 0b000000_00001_00010_00011_00000_100110#32 = some (.xor 3#5 1#5 2#5) := by decide
theorem test_decode_sll : decoded 0b000000_00000_00010_00011_00100_000000#32 = some (.sll 3#5 2#5 4#5) := by decide
theorem test_decode_srl : decoded 0b000000_00000_00010_00011_00100_000010#32 = some (.srl 3#5 2#5 4#5) := by decide
theorem test_decode_sra : decoded 0b000000_00000_00010_00011_00100_000011#32 = some (.sra 3#5 2#5 4#5) := by decide
theorem test_decode_sllv : decoded 0b000000_00001_00010_00011_00000_000100#32 = some (.sllv 3#5 2#5 1#5) := by decide
theorem test_decode_srlv : decoded 0b000000_00001_00010_00011_00000_000110#32 = some (.srlv 3#5 2#5 1#5) := by decide
theorem test_decode_srav : decoded 0b000000_00001_00010_00011_00000_000111#32 = some (.srav 3#5 2#5 1#5) := by decide
theorem test_decode_jr : decoded 0b000000_11111_000000000000000_001000#32 = some (.jr 31#5) := by decide
theorem test_decode_jalr : decoded 0b000000_00101_00000_11111_00000_001001#32 = some (.jalr 31#5 5#5) := by decide
theorem test_decode_addi : decoded 0b001000_00001_00010_1111111100000000#32 = some (.addi 2#5 1#5 0xFF00#16) := by decide
theorem test_decode_andi : decoded 0b001100_00001_00010_1111111100000000#32 = some (.andi 2#5 1#5 0xFF00#16) := by decide
theorem test_decode_ori : decoded 0b001101_00001_00010_1111111100000000#32 = some (.ori 2#5 1#5 0xFF00#16) := by decide
theorem test_decode_slti : decoded 0b001010_00001_00010_1111111100000000#32 = some (.slti 2#5 1#5 0xFF00#16) := by decide
theorem test_decode_xori : decoded 0b001110_00001_00010_1111111100000000#32 = some (.xori 2#5 1#5 0xFF00#16) := by decide
theorem test_decode_lui : decoded 0b001111_00000_00001_0001001000110100#32 = some (.lui 1#5 0x1234#16) := by decide
theorem test_decode_beq : decoded 0b000100_00001_00010_0000000000000011#32 = some (.beq 1#5 2#5 3#16) := by decide
theorem test_decode_bne : decoded 0b000101_00001_00010_1111111111111110#32 = some (.bne 1#5 2#5 0xFFFE#16) := by decide
theorem test_decode_j : decoded 0b000010_11111111111111111111111111#32 = some (.j 0x3FFFFFF#26) := by decide
theorem test_decode_jal : decoded 0b000011_00000100000000000000001000#32 = some (.jal 0x0100008#26) := by decide
theorem test_decode_lb : decoded 0b100000_00001_00010_0000000000000011#32 = some (.lb 2#5 3#16 1#5) := by decide
theorem test_decode_lbu : decoded 0b100100_00001_00010_0000000000000011#32 = some (.lbu 2#5 3#16 1#5) := by decide
theorem test_decode_lh : decoded 0b100001_00001_00010_0000000000000011#32 = some (.lh 2#5 3#16 1#5) := by decide
theorem test_decode_lhu : decoded 0b100101_00001_00010_0000000000000011#32 = some (.lhu 2#5 3#16 1#5) := by decide
theorem test_decode_lw : decoded 0b100011_00001_00010_0000000000000011#32 = some (.lw 2#5 3#16 1#5) := by decide
theorem test_decode_lwu : decoded 0b100111_00001_00010_0000000000000011#32 = some (.lwu 2#5 3#16 1#5) := by decide
theorem test_decode_sb : decoded 0b101000_00001_00010_0000000000000011#32 = some (.sb 2#5 3#16 1#5) := by decide
theorem test_decode_sh : decoded 0b101001_00001_00010_0000000000000011#32 = some (.sh 2#5 3#16 1#5) := by decide
theorem test_decode_sw : decoded 0b101011_00001_00010_0000000000000011#32 = some (.sw 2#5 3#16 1#5) := by decide

/-! ### Words that decode to nothing (R87) -/

theorem test_decode_no_page_refused : decoded 0x0000000C#32 = none := by decide
theorem test_decode_shift_with_rs_refused : decoded 0x00200040#32 = none := by decide
theorem test_decode_add_with_sa_refused : decoded 0x00221860#32 = none := by decide
theorem test_decode_lui_with_rs_refused : decoded 0x3C211234#32 = none := by decide
theorem test_decode_jr_with_rt_refused : decoded 0x00210008#32 = none := by decide
theorem test_decode_jalr_with_rt_refused : decoded 0x0021F809#32 = none := by decide
theorem test_decode_addiu_refused : decoded 0x24010001#32 = none := by decide
theorem test_decode_sltu_refused : decoded 0x0022182B#32 = none := by decide
theorem test_decode_all_ones_refused : decoded 0xFFFFFFFF#32 = none := by decide
theorem test_table_word : decodeTableWord 32 0x8C220008 = some (.lw 2#5 8#16 1#5) := by decide

/-! ### Arithmetic, logic, shifts (2.1 to 2.3) -/

theorem test_add_signs_differ :
    register (begin Params.default 0x1000#32 0x00221820 [(1#5, 0x7FFFFFFF#32), (2#5, 0x80000000#32)] []) 3#5 = some 0xFFFFFFFF#32 := by decide
theorem test_add_zero_destination_traps :
    trap (begin Params.default 0x1000#32 0x00220020 [(1#5, 0x7FFFFFFF#32), (2#5, 1#32)] []) = some (.integerOverflow, 0x1000#32, false) := by decide
theorem test_addi_minus_32768 :
    register (begin Params.default 0x1000#32 0x20228000 [(1#5, 0x80008000#32)] []) 2#5 = some 0x80000000#32 := by decide
theorem test_addi_traps :
    trap (begin Params.default 0x1000#32 0x20228000 [(1#5, 0x80007FFF#32)] []) = some (.integerOverflow, 0x1000#32, false) := by decide
theorem test_addu_wraps :
    register (begin Params.default 0x1000#32 0x00221821 [(1#5, 0xFFFFFFFF#32), (2#5, 0xFFFFFFFF#32)] []) 3#5 = some 0xFFFFFFFE#32 := by decide
theorem test_sub_fits :
    register (begin Params.default 0x1000#32 0x00221822 [(1#5, 0xFFFFFFFF#32), (2#5, 0x80000000#32)] []) 3#5 = some 0x7FFFFFFF#32 := by decide
theorem test_sub_traps :
    trap (begin Params.default 0x1000#32 0x00221822 [(1#5, 0#32), (2#5, 0x80000000#32)] []) = some (.integerOverflow, 0x1000#32, false) := by decide
theorem test_subu_wraps :
    register (begin Params.default 0x1000#32 0x00221823 [(1#5, 0#32), (2#5, 1#32)] []) 3#5 = some 0xFFFFFFFF#32 := by decide
theorem test_slt_true_signed_values :
    register (begin Params.default 0x1000#32 0x0022182A [(1#5, 0x80000000#32), (2#5, 0x7FFFFFFF#32)] []) 3#5 = some 1#32 := by decide
theorem test_slt_false :
    register (begin Params.default 0x1000#32 0x0022182A [(1#5, 0x7FFFFFFF#32), (2#5, 0x80000000#32)] []) 3#5 = some 0#32 := by decide
theorem test_slti_below :
    register (begin Params.default 0x1000#32 0x2822FFFF [(1#5, 0xFFFFFFFE#32)] []) 2#5 = some 1#32 := by decide
theorem test_slti_sign_extends :
    register (begin Params.default 0x1000#32 0x2822FFFF [(1#5, 0#32)] []) 2#5 = some 0#32 := by decide
theorem test_and :
    register (begin Params.default 0x1000#32 0x00221824 [(1#5, 0xFF00FF00#32), (2#5, 0x0FF00FF0#32)] []) 3#5 = some 0x0F000F00#32 := by decide
theorem test_or :
    register (begin Params.default 0x1000#32 0x00221825 [(1#5, 0xFF00FF00#32), (2#5, 0x0FF00FF0#32)] []) 3#5 = some 0xFFF0FFF0#32 := by decide
theorem test_xor :
    register (begin Params.default 0x1000#32 0x00221826 [(1#5, 0xFF00FF00#32), (2#5, 0x0FF00FF0#32)] []) 3#5 = some 0xF0F0F0F0#32 := by decide
theorem test_nor :
    register (begin Params.default 0x1000#32 0x00221827 [(1#5, 0xFF00FF00#32), (2#5, 0x0FF00FF0#32)] []) 3#5 = some 0x000F000F#32 := by decide
theorem test_andi_zero_extends :
    register (begin Params.default 0x1000#32 0x3022FFFF [(1#5, 0xDEADBEEF#32)] []) 2#5 = some 0x0000BEEF#32 := by decide
theorem test_ori_zero_extends :
    register (begin Params.default 0x1000#32 0x34228000 [(1#5, 0#32)] []) 2#5 = some 0x00008000#32 := by decide
theorem test_xori_zero_extends :
    register (begin Params.default 0x1000#32 0x3822FFFF [(1#5, 0xFFFFFFFF#32)] []) 2#5 = some 0xFFFF0000#32 := by decide
theorem test_lui :
    register (begin Params.default 0x1000#32 0x3C018000 [(1#5, 0xFFFFFFFF#32)] []) 1#5 = some 0x80000000#32 := by decide
theorem test_lui_zero_destination :
    register (begin Params.default 0x1000#32 0x3C001234 [] []) 0#5 = some 0#32 := by decide
theorem test_sll :
    register (begin Params.default 0x1000#32 0x00021840 [(2#5, 0x80000001#32)] []) 3#5 = some 0x00000002#32 := by decide
theorem test_sll_31 :
    register (begin Params.default 0x1000#32 0x00021FC0 [(2#5, 0x80000001#32)] []) 3#5 = some 0x80000000#32 := by decide
theorem test_srl :
    register (begin Params.default 0x1000#32 0x00021842 [(2#5, 0x80000001#32)] []) 3#5 = some 0x40000000#32 := by decide
theorem test_sra :
    register (begin Params.default 0x1000#32 0x00021843 [(2#5, 0x80000001#32)] []) 3#5 = some 0xC0000000#32 := by decide
theorem test_sra_31 :
    register (begin Params.default 0x1000#32 0x00021FC3 [(2#5, 0x7FFFFFFF#32)] []) 3#5 = some 0#32 := by decide
theorem test_sllv_count_33 :
    register (begin Params.default 0x1000#32 0x00221804 [(1#5, 0x21#32), (2#5, 0x80000001#32)] []) 3#5 = some 0x00000002#32 := by decide
theorem test_sllv_same_register :
    register (begin Params.default 0x1000#32 0x00421004 [(2#5, 3#32)] []) 2#5 = some 0x18#32 := by decide
theorem test_srlv_count_32 :
    register (begin Params.default 0x1000#32 0x00221806 [(1#5, 0x20#32), (2#5, 0x80000001#32)] []) 3#5 = some 0x80000001#32 := by decide
theorem test_srav :
    register (begin Params.default 0x1000#32 0x00221807 [(1#5, 0x24#32), (2#5, 0x80000000#32)] []) 3#5 = some 0xF8000000#32 := by decide

/-! ### Branches and jumps (2.4) -/

theorem test_beq_taken_far :
    flow (begin Params.default 0x00100000#32 0x10008000 [] []) = some (0x00100004#32, 0x000E0004#32, true) := by decide
theorem test_beq_not_taken :
    flow (begin Params.default 0x1000#32 0x10220003 [(1#5, 5#32), (2#5, 6#32)] []) = some (0x1004#32, 0x1008#32, true) := by decide
theorem test_bne_taken :
    flow (begin Params.default 0x1008#32 0x1422FFFE [(1#5, 5#32), (2#5, 6#32)] []) = some (0x100C#32, 0x1004#32, true) := by decide
theorem test_bne_not_taken :
    flow (begin Params.default 0x1000#32 0x14210064 [(1#5, 9#32)] []) = some (0x1004#32, 0x1008#32, true) := by decide
theorem test_j_boundary :
    flow (begin Params.default 0x0FFFFFFC#32 0x08000000 [] []) = some (0x10000000#32, 0x10000000#32, true) := by decide
theorem test_j :
    flow (begin Params.default 0x1000#32 0x0BFFFFFF [] []) = some (0x1004#32, 0x0FFFFFFC#32, true) := by decide
theorem test_jal_wraps :
    flow (begin Params.default 0xFFFFFFF8#32 0x0C000010 [] []) = some (0xFFFFFFFC#32, 0xF0000040#32, true) := by decide
theorem test_jal_link :
    register (begin Params.default 0x00400000#32 0x0C100008 [] []) 31#5 = some 0x00400008#32 := by decide
theorem test_jr_misaligned_completes :
    flow (begin Params.default 0x1000#32 0x00200008 [(1#5, 0x1002#32)] []) = some (0x1004#32, 0x1002#32, true) := by decide
theorem test_jalr_misaligned_completes :
    flow (begin Params.default 0x1000#32 0x00A02009 [(5#5, 0x2003#32)] []) = some (0x1004#32, 0x2003#32, true) := by decide
theorem test_jalr_link :
    register (begin Params.default 0x1000#32 0x00A0F809 [(5#5, 0x2000#32)] []) 31#5 = some 0x1008#32 := by decide
theorem test_jalr_same_register_refused :
    refusal (begin Params.default 0x1000#32 0x00A02809 [(5#5, 0x2000#32)] [])
      = some (.jalrRsEqualsRd (begin Params.default 0x1000#32 0x00A02809 [(5#5, 0x2000#32)] [])) := by decide

/-! ### Loads and stores (2.5, 2.6) -/

theorem test_lb_negative_offset :
    register (begin Params.default 0x1000#32 0x8022FFFF [(1#5, 0x2005#32)] dataBytes) 2#5 = some 0x00000004#32 := by decide
theorem test_lb_sign :
    register (begin bigEndian 0x1000#32 0x80220003 [(1#5, 0x2000#32)] dataBytes) 2#5 = some 0xFFFFFFB3#32 := by decide
theorem test_lbu :
    register (begin Params.default 0x1000#32 0x90220003 [(1#5, 0x2000#32)] dataBytes) 2#5 = some 0x000000B3#32 := by decide
theorem test_lh_big :
    register (begin bigEndian 0x1000#32 0x84220002 [(1#5, 0x2000#32)] dataBytes) 2#5 = some 0xFFFFA2B3#32 := by decide
theorem test_lh_little :
    register (begin Params.default 0x1000#32 0x84220002 [(1#5, 0x2000#32)] dataBytes) 2#5 = some 0xFFFFB3A2#32 := by decide
theorem test_lhu_big :
    register (begin bigEndian 0x1000#32 0x94220002 [(1#5, 0x2000#32)] dataBytes) 2#5 = some 0x0000A2B3#32 := by decide
theorem test_lhu_little :
    register (begin Params.default 0x1000#32 0x94220000 [(1#5, 0x2000#32)] dataBytes) 2#5 = some 0x00009180#32 := by decide
theorem test_lw_big_wraps :
    register (begin bigEndian 0x1000#32 0x8C227FFF [(1#5, 0xFFFFA005#32)] dataBytes) 2#5 = some 0x04152637#32 := by decide
theorem test_lw_little_base_is_destination :
    register (begin Params.default 0x1000#32 0x8C210000 [(1#5, 0x2000#32)] dataBytes) 1#5 = some 0xB3A29180#32 := by decide
theorem test_lwu_reserved :
    trap (begin Params.default 0x1000#32 0x9C220001 [(1#5, 0x2000#32)] []) = some (.reservedInstruction, 0x1000#32, false) := by decide
theorem test_sb :
    bytes (begin bigEndian 0x1000#32 0xA0220003 [(1#5, 0x2000#32), (2#5, 0x123456AB#32)] dataBytes) 0x2002 3 = some [0xA2#8, 0xAB#8, 0x04#8] := by decide
theorem test_sb_zero :
    bytes (begin Params.default 0x1000#32 0xA022FFFF [(1#5, 0x2002#32), (2#5, 0xFFFFFF00#32)] dataBytes) 0x2000 3 = some [0x80#8, 0x00#8, 0xA2#8] := by decide
theorem test_sh_big :
    bytes (begin bigEndian 0x1000#32 0xA4220002 [(1#5, 0x2000#32), (2#5, 0x1234CDEF#32)] dataBytes) 0x2001 4 = some [0x91#8, 0xCD#8, 0xEF#8, 0x04#8] := by decide
theorem test_sh_little :
    bytes (begin Params.default 0x1000#32 0xA4220002 [(1#5, 0x2000#32), (2#5, 0x1234CDEF#32)] dataBytes) 0x2001 4 = some [0x91#8, 0xEF#8, 0xCD#8, 0x04#8] := by decide
theorem test_sw_big :
    bytes (begin bigEndian 0x1000#32 0xAC220004 [(1#5, 0x2000#32), (2#5, 0x11223344#32)] dataBytes) 0x2003 5 = some [0xB3#8, 0x11#8, 0x22#8, 0x33#8, 0x44#8] := by decide
theorem test_sw_little :
    bytes (begin Params.default 0x1000#32 0xAC210000 [(1#5, 0x2004#32)] dataBytes) 0x2003 5 = some [0xB3#8, 0x04#8, 0x20#8, 0x00#8, 0x00#8] := by decide

/-! ### Faults and refusals of the step itself (2.7), end of run (R250), reset -/

/-- The state of `begin` with other sequencing fields. -/
def sequenced (s : State) (npc : Word) (ds : Bool) (ld : Option RegId) : State :=
  { s with npc := npc, ds := ds, ld := ld }

theorem test_fetch_misaligned : trap (begin smallMemory 0x1002#32 0 [] [])
    = some (.addressError .fetch 0x1002#32, 0x1002#32, false) := by decide
theorem test_fetch_bus_error : trap (begin smallMemory 0x3000#32 0 [] [])
    = some (.busError .fetch 0x3000#32, 0x3000#32, false) := by decide
theorem test_last_byte_is_read : register (begin smallMemory 0x1000#32 0x80220000 [(1#5, 0x2FFF#32)] []) 2#5
    = some 0#32 := by decide
theorem test_byte_after_the_last_bus_error : trap (begin smallMemory 0x1000#32 0x80220001 [(1#5, 0x2FFF#32)] [])
    = some (.busError .load 0x3000#32, 0x1000#32, false) := by decide
theorem test_store_bus_error : trap (begin smallMemory 0x1000#32 0xAC220000 [(1#5, 0x0FFC#32)] [])
    = some (.busError .store 0x0FFC#32, 0x1000#32, false) := by decide
theorem test_alignment_before_existence : trap (begin smallMemory 0x1000#32 0x84220001 [(1#5, 0x3000#32)] [])
    = some (.addressError .load 0x3001#32, 0x1000#32, false) := by decide
theorem test_store_misaligned : trap (begin Params.default 0x1000#32 0xAC220002 [(1#5, 0x2000#32)] [])
    = some (.addressError .store 0x2002#32, 0x1000#32, false) := by decide
theorem test_unknown_word_refused : refusal (begin Params.default 0x1000#32 0x24010001 [] [])
    = some (.unknownEncoding (begin Params.default 0x1000#32 0x24010001 [] [])) := by decide
theorem test_transfer_in_delay_slot_refused :
    refusal (sequenced (begin Params.default 0x1004#32 0x08000400 [] []) 0x100C#32 true none)
      = some (.controlTransferInDelaySlot (sequenced (begin Params.default 0x1004#32 0x08000400 [] []) 0x100C#32 true none)) := by
  decide
theorem test_load_use_refused :
    refusal (sequenced (begin Params.default 0x1000#32 0x00421821 [] []) 0x1004#32 false (some 2#5))
      = some (.loadDelayViolation (sequenced (begin Params.default 0x1000#32 0x00421821 [] []) 0x1004#32 false (some 2#5))) := by
  decide
theorem test_load_overwritten_runs :
    register (sequenced (begin Params.default 0x1000#32 0x00211021 [(1#5, 7#32), (2#5, 9#32)] []) 0x1004#32 false
      (some 2#5)) 2#5 = some 14#32 := by decide
theorem test_overflow_in_delay_slot :
    trap (sequenced (begin Params.default 0x1010#32 0x20230001 [(1#5, 0x7FFFFFFF#32)] []) 0x1014#32 true none)
      = some (.integerOverflow, 0x100C#32, true) := by decide

/-- Program 6 (c): the bytes at 00001010 have been stored to. -/
def afterStore : State := { begin Params.default 0x1010#32 0 [] [] with written := [0x1010, 0x1011, 0x1012, 0x1013] }

theorem test_fetch_after_store_refused : refusal afterStore = some (.fetchAfterStore afterStore) := by decide
theorem test_end_of_run_stays : step (begin { Params.default with endPC := some 0x1018#32 } 0x1018#32 0xFFFFFFFF [] [])
    = .next (begin { Params.default with endPC := some 0x1018#32 } 0x1018#32 0xFFFFFFFF [] []) := rfl
theorem test_end_address_in_delay_slot_runs :
    flow (sequenced (begin { Params.default with endPC := some 0x1018#32 } 0x1018#32 0 [] []) 0x2000#32 true none)
      = some (0x2000#32, 0x2004#32, false) := by decide
theorem test_reset_memory_canonical : State.reset.mem.wf := by decide
theorem test_placed_word_bytes : (begin bigEndian 0x1000#32 0x00221820 [] []).mem.cells
    = [(0x1001, 0x22#8), (0x1002, 0x18#8), (0x1003, 0x20#8)] := by decide
theorem test_mapped_load : register (begin mapped 0x1000#32 0x80220001 [(1#5, 0x5000#32)] dataBytes) 2#5
    = some 0xFFFFFF91#32 := by decide

/-! ### Witnesses of the obligations: concrete states and operands that meet their hypotheses, clause by clause -/

/-- Register values at the two ends of the signed range, 0, 1, a misaligned and a few mapped addresses. -/
def corner (p : Params) : State :=
  begin p 0x1000#32 0
    [(1#5, 0x7FFFFFFF#32), (2#5, 0x80000000#32), (3#5, 1#32), (4#5, 0xFFFFFFFF#32), (5#5, 0x2000#32), (6#5, 0x2001#32),
     (7#5, 0x5000#32), (8#5, 0x6000#32), (9#5, 0x7000#32), (10#5, 0x3000#32)] dataBytes

theorem witness_encodeOfDecode : decodeWord 0x00221820#32 = .ok (.add 3#5 1#5 2#5) := by decide
theorem witness_decoderIsTheTable_row : ∃ r ∈ opcodeRows, r.matches 0x00221820#32 := by decide
theorem witness_decoderIsTheTable_none : ∀ r ∈ opcodeRows, ¬ r.matches 0x00221860#32 := by decide
theorem witness_tableRowsAreDisjoint :
    ∃ r ∈ opcodeRows, ∃ q ∈ opcodeRows, r.matches 0x00000000#32 ∧ q.matches 0x00000000#32 := by decide

theorem witness_trappingArithmetic_add :
    ((corner Params.default).x 1#5).toInt + ((corner Params.default).x 0#5).toInt = 2 ^ 31 - 1
    ∧ ((corner Params.default).x 1#5).toInt + ((corner Params.default).x 3#5).toInt = 2 ^ 31
    ∧ ((corner Params.default).x 2#5).toInt + ((corner Params.default).x 4#5).toInt = -2 ^ 31 - 1 := by decide
theorem witness_trappingArithmetic_addi :
    ((corner Params.default).x 2#5).toInt + (0#16).toInt = -2 ^ 31
    ∧ ((corner Params.default).x 1#5).toInt + (1#16).toInt = 2 ^ 31
    ∧ ((corner Params.default).x 2#5).toInt + (0xFFFF#16).toInt = -2 ^ 31 - 1 := by decide
theorem witness_trappingArithmetic_sub :
    ((corner Params.default).x 4#5).toInt - ((corner Params.default).x 2#5).toInt = 2 ^ 31 - 1
    ∧ ((corner Params.default).x 0#5).toInt - ((corner Params.default).x 2#5).toInt = 2 ^ 31
    ∧ ((corner Params.default).x 2#5).toInt - ((corner Params.default).x 3#5).toInt = -2 ^ 31 - 1 := by decide
theorem witness_signedComparison_slt :
    ((corner Params.default).x 2#5).toInt < ((corner Params.default).x 1#5).toInt
    ∧ ((corner Params.default).x 1#5).toInt ≤ ((corner Params.default).x 1#5).toInt := by decide
theorem witness_signedComparison_slti :
    ((corner Params.default).x 2#5).toInt < (0x8000#16).toInt
    ∧ (0xFFFF#16).toInt ≤ ((corner Params.default).x 4#5).toInt := by decide
theorem witness_trappingAndWrappingAgree :
    (∃ t, exec (.add 3#5 1#5 2#5) (corner Params.default) = .next t)
    ∧ ∃ t, exec (.sub 3#5 4#5 2#5) (corner Params.default) = .next t := ⟨⟨_, rfl⟩, ⟨_, rfl⟩⟩
theorem witness_registerLogic :
    (∀ k < 32, (0x00000000#32).getLsbD k
      = (((corner Params.default).x 1#5).getLsbD k && ((corner Params.default).x 2#5).getLsbD k))
    ∧ (∀ k < 32, (0x00000000#32).getLsbD k
      = !(((corner Params.default).x 1#5).getLsbD k || ((corner Params.default).x 2#5).getLsbD k))
    ∧ (∀ k < 32, (0xFFFFFFFF#32).getLsbD k
      = (((corner Params.default).x 1#5).getLsbD k || ((corner Params.default).x 2#5).getLsbD k))
    ∧ ∀ k < 32, (0xFFFFFFFF#32).getLsbD k
      = (((corner Params.default).x 1#5).getLsbD k != ((corner Params.default).x 2#5).getLsbD k) := by decide
theorem witness_immediateLogic :
    (∀ k < 32, (0x0000FFFF#32).getLsbD k = ((0xFFFF#16).getLsbD k && ((corner Params.default).x 4#5).getLsbD k))
    ∧ (∀ k < 32, (0x8000FFFF#32).getLsbD k = ((0xFFFF#16).getLsbD k || ((corner Params.default).x 2#5).getLsbD k))
    ∧ ∀ k < 32, (0xFFFF0000#32).getLsbD k = (((corner Params.default).x 4#5).getLsbD k != (0xFFFF#16).getLsbD k) := by
  decide
theorem witness_upperThenLowerBuildsAConstant :
    1#5 ≠ 0#5 ∧ ∃ t u, exec (.lui 1#5 0x1234#16) (corner Params.default) = .next t
      ∧ exec (.ori 1#5 1#5 0x5678#16) t = .next u := ⟨by decide, _, _, rfl, rfl⟩
theorem witness_regionJumps :
    (0x4FFFFFFC#32 : Word).toNat
      = ((begin Params.default 0x40001000#32 0 [] []).pc + 4#32).toNat / 2 ^ 28 * 2 ^ 28 + 4 * (0x3FFFFFF#26).toNat := by
  decide
theorem witness_registerJump_tail : ∃ t u, exec (.jr 6#5) (corner Params.default) = .next t
    ∧ isControlTransfer (.sll 0#5 0#5 0#5) = false ∧ exec (.sll 0#5 0#5 0#5) t = .next u
    ∧ ((corner Params.default).x 6#5).toNat % 4 ≠ 0 ∧ u.done = false := ⟨_, _, rfl, rfl, rfl, by decide, rfl⟩
theorem witness_registerJumpAndLink :
    0#5 = 0#5 ∧ 6#5 ≠ 31#5 ∧ ∃ t u, exec (.jalr 31#5 6#5) (corner Params.default) = .next t
    ∧ isControlTransfer (.sll 0#5 0#5 0#5) = false ∧ exec (.sll 0#5 0#5 0#5) t = .next u
    ∧ ((corner Params.default).x 6#5).toNat % 4 ≠ 0 ∧ u.done = false :=
  ⟨rfl, by decide, _, _, rfl, rfl, rfl, by decide, rfl⟩

/-- The clauses of the loads, in the small memory with the mapped pages: base 6 misaligned, 8 TLB Refill, 10 outside, 7 moved
to 00002000, and offset 0x0FFC of base 5 the last word that exists. -/
theorem witness_loads :
    (effectiveAddress 0#16 6#5 (corner mapped)).toNat % 2 ≠ 0
    ∧ (effectiveAddress 0#16 6#5 (corner mapped)).toNat % 4 ≠ 0
    ∧ (effectiveAddress 0#16 8#5 (corner mapped)).toNat % 4 = 0
    ∧ addressTranslation (corner mapped).params.translation (effectiveAddress 0#16 8#5 (corner mapped)) .data .load
      = .error (.tlbRefill .load 0x6000#32)
    ∧ addressTranslation (corner mapped).params.translation (effectiveAddress 0#16 10#5 (corner mapped)) .data .load
      = .ok 0x3000
    ∧ addressExists (corner mapped).params 0x3000 = false
    ∧ addressTranslation (corner mapped).params.translation (effectiveAddress 0#16 7#5 (corner mapped)) .data .load
      = .ok 0x2000
    ∧ addressTranslation (corner mapped).params.translation (effectiveAddress 0x0FFC#16 5#5 (corner mapped)) .data .load
      = .ok 0x2FFC
    ∧ ∀ k < 4, addressExists (corner mapped).params (0x2FFC + k) = true := by decide
/-- The clauses of the stores: base 6 misaligned, 8 TLB Modified, 9 Address Error, 10 outside, 7 moved, and the last word. -/
theorem witness_stores :
    (corner mapped).mem.wf
    ∧ (effectiveAddress 0#16 6#5 (corner mapped)).toNat % 2 ≠ 0
    ∧ (effectiveAddress 0#16 6#5 (corner mapped)).toNat % 4 ≠ 0
    ∧ addressTranslation (corner mapped).params.translation (effectiveAddress 0#16 8#5 (corner mapped)) .data .store
      = .error (.tlbModified 0x6000#32)
    ∧ addressTranslation (corner mapped).params.translation (effectiveAddress 0#16 9#5 (corner mapped)) .data .store
      = .error (.addressError .store 0x7000#32)
    ∧ addressTranslation (corner mapped).params.translation (effectiveAddress 0#16 10#5 (corner mapped)) .data .store
      = .ok 0x3000
    ∧ addressExists (corner mapped).params 0x3000 = false
    ∧ addressTranslation (corner mapped).params.translation (effectiveAddress 0#16 7#5 (corner mapped)) .data .store
      = .ok 0x2000
    ∧ addressTranslation (corner mapped).params.translation (effectiveAddress 0x0FFC#16 5#5 (corner mapped)) .data .store
      = .ok 0x2FFC
    ∧ ∀ k < 4, addressExists (corner mapped).params (0x2FFC + k) = true := by decide
/-- A TLB Modified row is passed over by a load (R52 (c)): the identity answers. -/
theorem witness_translationKeepsItsRequirements :
    addressTranslation mapped.translation 0x5003#32 .data .load = .ok 0x2003
    ∧ addressTranslation mapped.translation 0x7003#32 .data .load = .ok 0x7003
    ∧ addressTranslation mapped.translation 0x6000#32 .data .load = .error (.tlbRefill .load 0x6000#32)
    ∧ addressTranslation mapped.translation 0x6FFF#32 .data .store = .error (.tlbModified 0x6FFF#32)
    ∧ addressTranslation mapped.translation 0x7FFF#32 .data .store = .error (.addressError .store 0x7FFF#32)
    ∧ addressTranslation mapped.translation 0x8000#32 .instruction .load = .error (.tlbInvalid .fetch 0x8000#32) := by
  decide
theorem witness_identityTranslationNeverRaises :
    (corner smallMemory).params.translation = AddressTranslation.identity
    ∧ locate (corner smallMemory) 0x2001#32 .half .data .load = .error (.addressError .load 0x2001#32)
    ∧ locate (corner smallMemory) 0x3000#32 .byte .data .store = .error (.busError .store 0x3000#32) := by decide
theorem witness_mixedWidthAccess : (corner mapped).mem.wf
    ∧ locate (corner mapped) 0x5004#32 .word .data .store = .ok 0x2004
    ∧ (∃ t, memWrite (corner mapped) 0x5004#32 .word 0x11223344#32 = .ok t)
    ∧ ∀ k < 4, addressTranslation (corner mapped).params.translation (0x5004#32 + BitVec.ofNat 32 k) .data .load
        = .ok (0x2004 + k) := ⟨by decide, by decide, ⟨_, rfl⟩, by decide⟩

/-! ### Witnesses for the step -/

/-- A load of word 00000004(r5) into r2 at 00001000, and what follows it at 00001004. -/
def loadThen (next : Nat) : State :=
  { begin Params.default 0x1004#32 next [(5#5, 0x2000#32)] dataBytes with pc := 0x1000#32, npc := 0x1004#32 }.withFetchWord
    32 0x8CA20004
/-- BEQ r0, r0, 3 at 00001000, and what follows it at 00001004. -/
def branchThen (next : Nat) : State :=
  { begin Params.default 0x1004#32 next [(1#5, 0x7FFFFFFF#32)] [] with pc := 0x1000#32, npc := 0x1004#32 }.withFetchWord
    32 0x10000003
/-- The state after one step, or the same state where there is none. -/
def after (s : State) : State :=
  match step s with
  | .next t => t
  | .fault _ | .refused _ => s

theorem fetches_of {s : State} {i : Instr} {p : Nat} (h : s.pc.toNat % 4 = 0
    ∧ addressTranslation s.params.translation s.pc .instruction .load = .ok p
    ∧ (∀ k < 4, addressExists s.params (p + k) = true) ∧ (∀ k < 4, p + k ∉ s.written)
    ∧ decodeWord (wordAt s p) = .ok i) : Fetches s i :=
  ⟨h.1, p, h.2⟩

theorem witness_stepRunsTheDecodedInstruction : (branchThen 0).done = false ∧ Fetches (branchThen 0) (.beq 0#5 0#5 3#16)
    ∧ isControlTransfer (.beq 0#5 0#5 3#16) = true ∧ (branchThen 0).ds = false
    ∧ (after (loadThen 0x00A31821)).ld = some 2#5 ∧ Fetches (after (loadThen 0x00A31821)) (.addu 3#5 5#5 3#5)
    ∧ 2#5 ∉ reads (.addu 3#5 5#5 3#5) :=
  ⟨by decide, fetches_of (p := 0x1000) (by decide), by decide, by decide, by decide,
    fetches_of (p := 0x1004) (by decide), by decide⟩
theorem witness_fetchAnswers :
    (begin mapped 0x1002#32 0 [] []).pc.toNat % 4 ≠ 0
    ∧ addressTranslation mapped.translation (begin mapped 0x8000#32 0 [] []).pc .instruction .load
      = .error (.tlbInvalid .fetch 0x8000#32)
    ∧ addressTranslation mapped.translation (begin mapped 0x3000#32 0 [] []).pc .instruction .load = .ok 0x3000
    ∧ addressExists (begin mapped 0x3000#32 0 [] []).params 0x3000 = false
    ∧ addressTranslation afterStore.params.translation afterStore.pc .instruction .load = .ok 0x1010
    ∧ 0x1013 ∈ afterStore.written ∧ afterStore.done = false
    ∧ (∀ k < 4, addressExists afterStore.params (0x1010 + k) = true)
    ∧ addressTranslation mapped.translation (begin mapped 0x2FFC#32 0 [] []).pc .instruction .load = .ok 0x2FFC
    ∧ (∀ k < 4, addressExists (begin mapped 0x2FFC#32 0 [] []).params (0x2FFC + k) = true)
    ∧ (∀ k < 4, 0x2FFC + k ∉ (begin mapped 0x2FFC#32 0 [] []).written)
    ∧ (begin mapped 0x2FFC#32 0 [] []).done = false := by decide
theorem witness_unknownWordsAreRefused : (begin Params.default 0x1000#32 0x24010001 [] []).done = false
    ∧ fetchWord (begin Params.default 0x1000#32 0x24010001 [] []) = .next 0x24010001#32
    ∧ ∀ r ∈ opcodeRows, ¬ r.matches 0x24010001#32 := ⟨by decide, rfl, by decide⟩
theorem witness_loadUseIsRefused : isLoad (.lw 2#5 4#16 5#5) = true ∧ writes (.lw 2#5 4#16 5#5) = some 2#5 ∧ 2#5 ≠ 0#5
    ∧ exec (.lw 2#5 4#16 5#5) (loadThen 0x00421821) = .next (after (loadThen 0x00421821))
    ∧ (after (loadThen 0x00421821)).done = false ∧ Fetches (after (loadThen 0x00421821)) (.addu 3#5 2#5 2#5)
    ∧ 2#5 ∈ reads (.addu 3#5 2#5 2#5) :=
  ⟨by decide, by decide, by decide, rfl, by decide, fetches_of (p := 0x1004) (by decide), by decide⟩
theorem witness_transferInADelaySlotIsRefused : isControlTransfer (.beq 0#5 0#5 3#16) = true
    ∧ exec (.beq 0#5 0#5 3#16) (branchThen 0x08000400) = .next (after (branchThen 0x08000400))
    ∧ Fetches (after (branchThen 0x08000400)) (.j 0x400#26) ∧ isControlTransfer (.j 0x400#26) = true :=
  ⟨by decide, rfl, fetches_of (p := 0x1004) (by decide), by decide⟩
theorem witness_stepEndsAsSequenced :
    (∃ t, exec (.lw 2#5 4#16 5#5) (loadThen 0) = .next t) ∧ isLoad (.lw 2#5 4#16 5#5) = true
    ∧ (∃ t, exec (.lw 0#5 4#16 5#5) (loadThen 0) = .next t) ∧ writes (.lw 0#5 4#16 5#5) = some 0#5
    ∧ (∃ t, exec (.beq 0#5 0#5 3#16) (branchThen 0) = .next t) ∧ isLoad (.beq 0#5 0#5 3#16) = false
    ∧ isControlTransfer (.lw 2#5 4#16 5#5) = false := ⟨⟨_, rfl⟩, rfl, ⟨_, rfl⟩, rfl, ⟨_, rfl⟩, rfl, rfl⟩

/-- The invariant, field by field, for states where each field is decided. -/
theorem inv_of {s : State} (h : s.mem.wf ∧ (∀ c ∈ s.mem.cells, addressExists s.params c.1 = true)
    ∧ s.written.Pairwise (· < ·) ∧ (∀ a ∈ s.written, addressExists s.params a = true)
    ∧ (s.ds = false → s.npc = s.pc + 4#32) ∧ (s.ds = true → s.pc.toNat % 4 = 0) ∧ s.ld ≠ some 0#5) : s.Inv :=
  ⟨h.1, h.2.1, h.2.2.1, h.2.2.2.1, h.2.2.2.2.1, h.2.2.2.2.2.1, h.2.2.2.2.2.2⟩

theorem witness_delaySlotRunsBeforeTheTarget : (branchThen 0).Inv ∧ (branchThen 0).done = false
    ∧ Fetches (branchThen 0) (.beq 0#5 0#5 3#16) ∧ isControlTransfer (.beq 0#5 0#5 3#16) = true
    ∧ step (branchThen 0) = .next (after (branchThen 0))
    ∧ step (after (branchThen 0)) = .next (after (after (branchThen 0))) :=
  ⟨inv_of (by decide), by decide, fetches_of (p := 0x1000) (by decide), by decide, rfl, rfl⟩
theorem witness_trapsArePrecise : (∃ e epc st, step (begin mapped 0x1002#32 0 [] []) = .fault (.trap e epc false st))
    ∧ ∃ e epc st, step (after (branchThen 0x20230001)) = .fault (.trap e epc true st) :=
  ⟨⟨_, _, _, rfl⟩, ⟨_, _, _, rfl⟩⟩
theorem witness_delaySlotTrapNamesTheBranch : (branchThen 0x20230001).Inv
    ∧ step (branchThen 0x20230001) = .next (after (branchThen 0x20230001))
    ∧ (after (branchThen 0x20230001)).ds = true
    ∧ ∃ e epc bd st, step (after (branchThen 0x20230001)) = .fault (.trap e epc bd st) :=
  ⟨inv_of (by decide), rfl, by decide, _, _, _, _, rfl⟩
theorem witness_reexecutingATransferIsHarmless : isControlTransfer (.jalr 31#5 5#5) = true
    ∧ ∃ t, exec (.jalr 31#5 5#5) (corner Params.default) = .next t := ⟨rfl, _, rfl⟩
theorem witness_exceptionsByInstruction :
    (∃ epc bd st, exec (.add 3#5 1#5 3#5) (corner mapped) = .fault (.trap .integerOverflow epc bd st))
    ∧ (∃ epc bd st, exec (.lwu 2#5 0#16 5#5) (corner mapped) = .fault (.trap .reservedInstruction epc bd st))
    ∧ (∃ epc bd st, exec (.lb 2#5 0#16 8#5) (corner mapped) = .fault (.trap (.tlbRefill .load 0x6000#32) epc bd st))
    ∧ ∃ epc bd st, exec (.sb 2#5 0#16 8#5) (corner mapped) = .fault (.trap (.tlbModified 0x6000#32) epc bd st) :=
  ⟨⟨_, _, _, rfl⟩, ⟨_, _, _, rfl⟩, ⟨_, _, _, rfl⟩, ⟨_, _, _, rfl⟩⟩

/-! ### Witnesses for frames, invariants, launch -/

theorem witness_registerZeroIsHardWired : 31#5 ≠ 0#5 := by decide
theorem witness_writeSetIsAll : (∃ t, exec (.jal 0#26) (corner Params.default) = .next t)
    ∧ writes (.jal 0#26) ≠ some 30#5 := ⟨⟨_, rfl⟩, by decide⟩
theorem witness_unreadRegistersDoNotMatter :
    3#5 ∉ reads (.addu 3#5 1#5 2#5) ∧ (∃ t, exec (.addu 3#5 1#5 2#5) (corner mapped) = .next t)
    ∧ 4#5 ∉ reads (.add 3#5 1#5 3#5) ∧ (∃ e epc bd st, exec (.add 3#5 1#5 3#5) (corner mapped) = .fault (.trap e epc bd st))
    ∧ 4#5 ∉ reads (.jalr 5#5 5#5) ∧ ∃ q, exec (.jalr 5#5 5#5) (corner mapped) = .refused q :=
  ⟨by decide, ⟨_, rfl⟩, by decide, ⟨_, _, _, _, rfl⟩, by decide, ⟨_, rfl⟩⟩
theorem witness_destinationZeroChangesNothing : writes (.lw 0#5 0#16 5#5) = some 0#5
    ∧ ∃ t, exec (.lw 0#5 0#16 5#5) (corner mapped) = .next t := ⟨rfl, _, rfl⟩
theorem witness_onlyStoresWriteMemory : isStore (.lw 2#5 0#16 5#5) = false
    ∧ ∃ t, exec (.lw 2#5 0#16 5#5) (corner mapped) = .next t := ⟨rfl, _, rfl⟩
theorem witness_onlyRegisterJumpsMisalign : (∀ rs, Instr.beq 0#5 0#5 0xFFFF#16 ≠ .jr rs)
    ∧ (∀ rd rs, Instr.beq 0#5 0#5 0xFFFF#16 ≠ .jalr rd rs) ∧ (corner mapped).pc.toNat % 4 = 0
    ∧ (corner mapped).npc.toNat % 4 = 0 ∧ ∃ t, exec (.beq 0#5 0#5 0xFFFF#16) (corner mapped) = .next t :=
  ⟨nofun, nofun, by decide, by decide, _, rfl⟩
/-- SB r2, 0(r1) at 00001000: a step that changes a byte, in a state of the invariant. -/
def storing : State := begin smallMemory 0x1000#32 0xA0220000 [(1#5, 0x2000#32), (2#5, 0xAB#32)] dataBytes

theorem witness_stepKeepsTheInvariant : storing.Inv ∧ step storing = .next (after storing) :=
  ⟨inv_of (by decide), rfl⟩
theorem witness_changedBytesAreInTheWrittenSet :
    (after storing).mem.read 0x2000 ≠ storing.mem.read 0x2000 ∧ 0x2000 ∈ (after storing).written := by decide
/-- A launch with SB r2, 0(r1) at 00001000 and ORI r1, r0, 0x2000 after it: the run stores a byte, then fetches. -/
def storingLaunch : State :=
  State.launch { smallMemory with resetPC := 0x1000#32 }
    (((Vector.replicate 31 0#32).set 0 0x2000#32).set 1 0xAB#32)
    { cells := [(0x1002, 0x22#8), (0x1003, 0xA0#8), (0x1005, 0x20#8), (0x1006, 0x01#8), (0x1007, 0x34#8)] }

theorem witness_fetchedCodeIsTheLaunchedCode :
    ∃ t, Sys2Proof.core.run 1 storingLaunch = .next t ∧ t.written = [0x2000] ∧ t.mem.read 0x2000 = 0xAB#8
      ∧ fetchWord t = .next 0x34012000#32 := ⟨_, rfl, rfl, rfl, rfl⟩
theorem witness_runsKeepTheInvariant : ({ cells := dataBytes } : Memory).wf
    ∧ (∀ c ∈ dataBytes, addressExists smallMemory c.1 = true)
    ∧ ∃ t, Sys2Proof.core.run 2 (State.launch { smallMemory with resetPC := 0x1000#32 } (Vector.replicate 31 0#32)
        { cells := dataBytes }) = .next t := ⟨by decide, by decide, _, rfl⟩
theorem witness_resetLeavesTheLaunchState : 0 < 31 ∧ 30 < 31 := by decide
theorem witness_runEndsAtEndPC :
    (begin { Params.default with endPC := some 0x1000#32 } 0x1000#32 0 [] []).params.endPC
      = some (begin { Params.default with endPC := some 0x1000#32 } 0x1000#32 0 [] []).pc
    ∧ (begin { Params.default with endPC := some 0x1000#32 } 0x1000#32 0 [] []).ds = false
    ∧ (begin Params.default 0x1000#32 0 [] []).params.endPC ≠ some (begin Params.default 0x1000#32 0 [] []).pc
    ∧ (sequenced (begin { Params.default with endPC := some 0x1000#32 } 0x1000#32 0 [] []) 0x2000#32 true none).ds = true
    ∧ fetchWord (begin Params.default 0x1000#32 0 [] []) = .next 0#32
    ∧ fetchWord (sequenced (begin { Params.default with endPC := some 0x1000#32 } 0x1000#32 0 [] []) 0x2000#32 true none)
      = .next 0#32 := ⟨by decide, by decide, by decide, by decide, rfl, rfl⟩
theorem witness_placedWordIsFetched : (corner mapped).mem.wf
    ∧ locate (corner mapped) (corner mapped).pc .word .instruction .load = .ok 0x1000 := by decide
theorem witness_parametersAreFixed : step (corner Params.default) = .next (after (corner Params.default)) := rfl

end Sys2Proof.Tests
end

section
/-!
PROOFS. The parameters of a run stay as the launch chose them (00_scope.md R7, R8; R242).
-/

namespace Sys2Proof.Machine

/-- A next state differs from the old one by a register write, a store and the sequencing, none of which reaches the
parameters: no instruction in scope sets one (R7, R8). -/
theorem exec_params {i : Instr} {s t : State} (h : exec i s = .next t) : t.params = s.params := by
  cases exec_next_cases h with
  | result r v => rw [State.advance_params, State.setX_params]
  | load r v => rw [State.advanceLoad_params, State.setX_params]
  | store v n p d => rw [State.advance_params, State.storeAt_params]
  | transfer o => rw [State.advanceTransfer_params]
  | link r v o => rw [State.advanceTransfer_params, State.setX_params]

/-- Settles O48: a step stays at the end of the run (R250), or executes one fetched instruction. -/
theorem parametersAreFixed : Obligations.ParametersAreFixed := by
  intro s t h
  rcases step_next_iff.mp h with ⟨_, rfl⟩ | ⟨_, _, _, _, _, _, hexec⟩
  · rfl
  · exact exec_params hexec

end Sys2Proof.Machine
end

section
/-!
PROOFS. Registers, memory and sequencing after one instruction (10_state.md sections 2, 3 and 5): the write set (R22),
stores as the only writers of memory (R31), and `pc`, `npc`, `ds`, `ld` as steps 6, 8 and 9 of R24 leave them.
-/

namespace Sys2Proof.Machine

/-! ### Registers (R20, R21, R22) -/

/-- A register write is seen at its own register only; for register 0 both sides are the hard-wired zero. -/
theorem State.x_setX_of_ne (s : State) {r q : RegId} (v : Word) (h : r ≠ q) : (s.setX r v).x q = s.x q := by
  rw [State.x_setX, if_neg h.symm]
  split
  · next hq => rw [hq, State.x_zero]
  · rfl

/-- Settles O42, by the one law of a read after a write. -/
theorem registerZeroIsHardWired : Obligations.RegisterZeroIsHardWired := by
  intro s v
  refine ⟨State.x_zero s, State.setX_zero s v, fun r hr => ?_⟩
  rw [State.x_setX, if_neg hr, if_pos rfl]

/-- Settles O43: each shape of a next state writes at most the register of the write set. -/
theorem writeSetIsAll : Obligations.WriteSetIsAll := by
  intro s t i q h hq
  have other {r : RegId} (hw : writes i = some r) : r ≠ q := fun e => hq (e ▸ hw)
  cases exec_next_cases h with
  | result r v hw => rw [State.advance_x, State.x_setX_of_ne s v (other hw)]
  | load r v hw => rw [State.advanceLoad_x, State.x_setX_of_ne s v (other hw)]
  | store v n p d => rw [State.advance_x, State.storeAt_x]
  | transfer o => rw [State.advanceTransfer_x]
  | link r v o hw => rw [State.advanceTransfer_x, State.x_setX_of_ne s v (other hw)]

/-! ### Memory and the written set (R31, R33) -/

/-- An instruction that completes, writes no register and is no control transfer is a store: LWU, the one other
instruction of this kind, never completes (R165). -/
theorem isStore_of_writes_eq_none {i : Instr} {s t : State} (h : exec i s = .next t) (hw : writes i = none)
    (hc : isControlTransfer i = false) : isStore i = true := by
  cases i with
  | sb | sh | sw => rfl
  | lwu rt offset base => exact absurd h (raise_ne_next _ s t)
  | _ => simp [writes, isControlTransfer] at hw hc

/-- All an instruction can do to memory and the written set: nothing, or the one store of a store instruction. -/
theorem exec_memory_cases {i : Instr} {s t : State} (h : exec i s = .next t) :
    (t.mem = s.mem ∧ t.written = s.written) ∨
    (isStore i = true ∧ ∃ v n p, ∃ d : BitVec n.bits, locate s v n .data .store = .ok p
      ∧ t.mem = (s.storeAt p n d).mem ∧ t.written = (s.storeAt p n d).written) := by
  cases exec_next_cases h with
  | result r v => exact .inl ⟨by simp, by simp⟩
  | load r v => exact .inl ⟨by simp, by simp⟩
  | store v n p d hw hc hl => exact .inr ⟨isStore_of_writes_eq_none h hw hc, v, n, p, d, hl, rfl, rfl⟩
  | transfer o => exact .inl ⟨rfl, rfl⟩
  | link r v o => exact .inl ⟨by simp, by simp⟩

/-- Settles O46. -/
theorem onlyStoresWriteMemory : Obligations.OnlyStoresWriteMemory := by
  intro s t i hs h
  rcases exec_memory_cases h with ⟨hmem, hwritten⟩ | ⟨hstore, -⟩
  · exact ⟨fun a => by rw [hmem], hwritten, exec_params h⟩
  · exact absurd (hs.symm.trans hstore) Bool.false_ne_true

/-- The written set after a store (R47). -/
theorem State.mem_storeAt_written {s : State} {p a : Nat} {n : AccessSize} {d : BitVec n.bits} :
    a ∈ (s.storeAt p n d).written ↔ (p ≤ a ∧ a < p + n.bytes) ∨ a ∈ s.written :=
  mem_insertAddresses n.bytes p a s.written

/-- What a store can list: its own addresses, and cells listed before (R47). -/
theorem State.mem_storeAt_cells {s : State} {p : Nat} {n : AccessSize} {d : BitVec n.bits} {c : Host.Cell}
    (h : c ∈ (s.storeAt p n d).mem.cells) : (p ≤ c.1 ∧ c.1 < p + n.bytes) ∨ c ∈ s.mem.cells := by
  rw [State.storeAt_mem] at h
  simpa only [length_storeBytes] using Memory.mem_writeBytes _ s.mem p h

/-- Settles O49: a byte outside the addresses a store adds to the written set reads as before. -/
theorem changedBytesAreInTheWrittenSet : Obligations.ChangedBytesAreInTheWrittenSet := by
  intro s t h
  rcases step_next_iff.mp h with ⟨-, rfl⟩ | ⟨-, w, i, -, -, -, hexec⟩
  · exact ⟨fun a ha => ha, fun a hne => absurd rfl hne⟩
  · rcases exec_memory_cases hexec with ⟨hmem, hwritten⟩ | ⟨-, v, n, p, d, -, hmem, hwritten⟩
    · rw [hmem, hwritten]
      exact ⟨fun a ha => ha, fun a hne => absurd rfl hne⟩
    · rw [hmem, hwritten]
      refine ⟨fun a ha => State.mem_storeAt_written.mpr (.inr ha), fun a hne => ?_⟩
      by_contra hout
      have houtside : a < p ∨ p + n.bytes ≤ a := by
        rw [State.mem_storeAt_written] at hout
        omega
      exact hne (s.read_storeAt_outside p n d houtside)

/-! ### Sequencing (steps 6, 8 and 9 of R24) -/

theorem exec_pc {i : Instr} {s t : State} (h : exec i s = .next t) : t.pc = s.npc := by
  cases exec_next_cases h with
  | result | load | transfer | link => simp
  | store => rfl

theorem exec_ds {i : Instr} {s t : State} (h : exec i s = .next t) : t.ds = isControlTransfer i := by
  cases exec_next_cases h with
  | result r v hw hc => exact hc.symm
  | load r v hw hc => exact hc.symm
  | store v n p d hw hc => exact hc.symm
  | transfer o hw hc => exact hc.symm
  | link r v o hw hc => exact hc.symm

theorem exec_npc_of_not_transfer {i : Instr} {s t : State} (h : exec i s = .next t)
    (hi : isControlTransfer i = false) : t.npc = s.npc + 4#32 := by
  cases exec_next_cases h with
  | result | load => simp
  | store => rfl
  | transfer o hw hc => exact absurd (hi.symm.trans hc) Bool.false_ne_true
  | link r v o hw hc => exact absurd (hi.symm.trans hc) Bool.false_ne_true

/-- No instruction leaves a load mark on register 0 (R26). -/
theorem exec_ld_ne_zero {i : Instr} {s t : State} (h : exec i s = .next t) : t.ld ≠ some 0#5 := by
  cases exec_next_cases h with
  | load r v =>
    rw [State.advanceLoad_ld]
    split
    · exact nofun
    · next hr => exact fun e => hr (Option.some.inj e)
  | result | store | transfer | link => exact nofun

end Sys2Proof.Machine
end

section
/-!
PROOFS. The shape of every meaning, with the operands as functions of the state that look at the read set only (R22).
From it: the load mark of R26, and that a register outside the read set influences nothing.
-/

namespace Sys2Proof.Machine

/-! ### The shapes of the meanings -/

/-- `f` looks at no general register but those `i` reads (R22). -/
def ReadsOnly {α : Type} (i : Instr) (f : State → α) : Prop :=
  ∀ (s : State) (r : RegId) (v : Word), r ∉ reads i → f (s.setX r v) = f s

/-- The eight shapes of a meaning, in every outcome; `ExecNext` has what they leave when they complete. -/
inductive ExecShape (i : Instr) : Prop where
  | result (r : RegId) (f : State → Word) (he : ∀ s, exec i s = writeResult r (f s) s)
      (hf : ReadsOnly i f) (hw : writes i = some r)
  | checked (r : RegId) (o : State → Bool) (f : State → Word)
      (he : ∀ s, exec i s = writeUnlessOverflow (o s) r (f s) s)
      (ho : ReadsOnly i o) (hf : ReadsOnly i f) (hw : writes i = some r)
  | load (n : AccessSize) (extend : BitVec n.bits → Word) (rt base : RegId) (offset : BitVec 16)
      (he : ∀ s, exec i s = loadWith n extend rt offset base s)
      (ha : ReadsOnly i (effectiveAddress offset base)) (hw : writes i = some rt) (hl : isLoad i = true)
  | store (n : AccessSize) (rt base : RegId) (offset : BitVec 16)
      (he : ∀ s, exec i s = storeWith n rt offset base s)
      (ha : ReadsOnly i (effectiveAddress offset base)) (hd : ReadsOnly i (State.x · rt)) (hw : writes i = none)
  | transfer (f : State → Option Word) (he : ∀ s, exec i s = .next (s.advanceTransfer (f s)))
      (hf : ReadsOnly i f) (hw : writes i = none)
  | link (r : RegId) (f : State → Option Word)
      (he : ∀ s, exec i s = .next ((s.setX r (linkAddress s)).advanceTransfer (f s)))
      (hf : ReadsOnly i f) (hw : writes i = some r)
  | refusedLink (q : State → Refusal) (he : ∀ s, exec i s = .refused (q s))
  | reserved (he : ∀ s, exec i s = raise .reservedInstruction s)

/-- Every instruction has one of the shapes. -/
theorem exec_shape (i : Instr) : ExecShape i := by
  cases i
  case add | addi | sub =>
    refine .checked _ _ _ (fun s => rfl) (fun s r v hr => ?_) (fun s r v hr => ?_) rfl <;>
      simp_all [reads, State.x_setX_of_ne]
  case lb | lbu | lh | lhu | lw =>
    refine .load _ _ _ _ _ (fun s => rfl) (fun s r v hr => ?_) rfl rfl
    simp_all [reads, effectiveAddress, State.x_setX_of_ne]
  case sb | sh | sw =>
    refine .store _ _ _ _ (fun s => rfl) (fun s r v hr => ?_) (fun s r v hr => ?_) rfl <;>
      simp_all [reads, effectiveAddress, State.x_setX_of_ne]
  case lwu => exact .reserved (fun s => rfl)
  case beq | bne | j | jr =>
    refine .transfer _ (fun s => rfl) (fun s r v hr => ?_) rfl
    simp_all [reads, branchTarget, jumpTarget, State.x_setX_of_ne]
  case jal =>
    refine .link _ _ (fun s => rfl) (fun s r v hr => ?_) rfl
    simp [jumpTarget]
  case jalr rd rs =>
    by_cases hq : rs = rd
    · exact .refusedLink .jalrRsEqualsRd (fun s => if_pos hq)
    · refine .link _ (fun s => some (s.x rs)) (fun s => if_neg hq) (fun s r v hr => ?_) rfl
      simp_all [reads, State.x_setX_of_ne]
  case addu | subu | slt | slti | and | andi | lui | nor | or | ori | xor | xori | sll | sllv | sra | srav | srl
      | srlv =>
    refine .result _ _ (fun s => rfl) (fun s r v hr => ?_) rfl
    simp_all [reads, registerCount, State.x_setX_of_ne]

/-! ### The load mark (R26) -/

/-- Only a load leaves a load mark. -/
theorem exec_ld_of_not_load {i : Instr} {s t : State} (h : exec i s = .next t) (hi : isLoad i = false) :
    t.ld = none := by
  cases exec_shape i with
  | result r f he =>
    rw [he, writeResult_eq, Host.Outcome.next.injEq] at h
    rw [← h, State.advance_ld]
  | checked r o f he =>
    obtain ⟨-, rfl⟩ := writeUnlessOverflow_next_iff.mp ((he s).symm.trans h)
    rfl
  | load n f rt base offset he ha hw hl => exact absurd (hi.symm.trans hl) Bool.false_ne_true
  | store n rt base offset he =>
    obtain ⟨p, -, rfl⟩ := storeWith_next_iff.mp ((he s).symm.trans h)
    rfl
  | transfer f he =>
    rw [he, Host.Outcome.next.injEq] at h
    rw [← h, State.advanceTransfer_ld]
  | link r f he =>
    rw [he, Host.Outcome.next.injEq] at h
    rw [← h, State.advanceTransfer_ld]
  | refusedLink q he => exact nomatch (he s).symm.trans h
  | reserved he => exact absurd ((he s).symm.trans h) (raise_ne_next _ s t)

/-- A load leaves its destination as the mark, unless that is register 0. -/
theorem exec_ld_of_load {i : Instr} {s t : State} {rt : RegId} (h : exec i s = .next t) (hi : isLoad i = true)
    (hw : writes i = some rt) : t.ld = if rt = 0#5 then none else some rt := by
  cases i
  case lb | lbu | lh | lhu | lw =>
    obtain ⟨p, -, rfl⟩ := loadWith_next_iff.mp h
    cases hw
    rfl
  all_goals exact nomatch hi

/-- Settles O36. The sequencing is the same for every shape; the load mark is set by the shape of a load only. -/
theorem stepEndsAsSequenced : Obligations.StepEndsAsSequenced := by
  intro s t i h
  exact ⟨exec_pc h, exec_ds h, exec_npc_of_not_transfer h, exec_ld_of_not_load h,
    fun hl rt hw => exec_ld_of_load h hl hw⟩

/-! ### A register outside the read set (R22) -/

/-- `t` with `v` in register `r`, unless `r` is the register `w` that an instruction has written. -/
def State.keepX (w : Option RegId) (r : RegId) (v : Word) (t : State) : State :=
  if w = some r then t else t.setX r v

/-- An earlier write to `r` shows after a write to `q` unless `q` is `r`. -/
theorem State.setX_setX_eq_keepX (s : State) (r q : RegId) (v u : Word) :
    (s.setX r v).setX q u = (s.setX q u).keepX (some q) r v := by
  by_cases hq : q = r
  · rw [hq, State.setX_setX, State.keepX, if_pos rfl]
  · rw [State.keepX, if_neg (fun e => hq (Option.some.inj e)), State.setX_comm s v u (Ne.symm hq)]

theorem State.setX_eq_keepX_none (s : State) (r : RegId) (v : Word) : s.setX r v = s.keepX none r v := rfl

theorem State.advance_setX (s : State) (r : RegId) (v : Word) : (s.setX r v).advance = s.advance.setX r v := by
  unfold State.setX; split <;> rfl

theorem State.advanceLoad_setX (s : State) (rt r : RegId) (v : Word) :
    (s.setX r v).advanceLoad rt = (s.advanceLoad rt).setX r v := by
  unfold State.setX; split <;> rfl

theorem State.advanceTransfer_setX (s : State) (o : Option Word) (r : RegId) (v : Word) :
    (s.setX r v).advanceTransfer o = (s.advanceTransfer o).setX r v := by
  unfold State.setX; split <;> rfl

theorem State.storeAt_setX (s : State) (p : Nat) (n : AccessSize) (d : BitVec n.bits) (r : RegId) (v : Word) :
    (s.setX r v).storeAt p n d = (s.storeAt p n d).setX r v := by
  unfold State.setX; split <;> rfl

theorem State.valueAt_setX (s : State) (p : Nat) (n : AccessSize) (r : RegId) (v : Word) :
    (s.setX r v).valueAt p n = s.valueAt p n := by
  simp [State.valueAt, State.bigEndianCPU]

theorem State.keepX_advance (w : Option RegId) (r : RegId) (v : Word) (t : State) :
    (t.keepX w r v).advance = t.advance.keepX w r v := by
  unfold State.keepX; split
  · rfl
  · exact t.advance_setX r v

theorem State.keepX_advanceLoad (w : Option RegId) (r : RegId) (v : Word) (rt : RegId) (t : State) :
    (t.keepX w r v).advanceLoad rt = (t.advanceLoad rt).keepX w r v := by
  unfold State.keepX; split
  · rfl
  · exact t.advanceLoad_setX rt r v

theorem State.keepX_advanceTransfer (w : Option RegId) (r : RegId) (v : Word) (o : Option Word) (t : State) :
    (t.keepX w r v).advanceTransfer o = (t.advanceTransfer o).keepX w r v := by
  unfold State.keepX; split
  · rfl
  · exact t.advanceTransfer_setX o r v

/-- The outcome of an instruction that writes the register `w`, and its outcome when `v` stood in register `r`: the
same, but for `v` in `r` (R22). -/
inductive SameButFor (w : Option RegId) (r : RegId) (v : Word) :
    Host.Outcome State Fault Refusal → Host.Outcome State Fault Refusal → Prop where
  | next (t : State) : SameButFor w r v (.next t) (.next (t.keepX w r v))
  | fault (e : Exception) (epc : Word) (bd : Bool) (st : State) :
      SameButFor w r v (.fault (.trap e epc bd st)) (.fault (.trap e epc bd (st.setX r v)))
  | refused (q q' : Refusal) : SameButFor w r v (.refused q) (.refused q')

theorem SameButFor.of_next {w : Option RegId} {r : RegId} {v : Word} {t : State}
    {o : Host.Outcome State Fault Refusal} (h : SameButFor w r v (.next t) o) : o = .next (t.keepX w r v) := by
  cases h; rfl

theorem SameButFor.of_fault {w : Option RegId} {r : RegId} {v : Word} {e : Exception} {epc : Word} {bd : Bool}
    {st : State} {o : Host.Outcome State Fault Refusal} (h : SameButFor w r v (.fault (.trap e epc bd st)) o) :
    o = .fault (.trap e epc bd (st.setX r v)) := by
  cases h; rfl

theorem SameButFor.of_refused {w : Option RegId} {r : RegId} {v : Word} {q : Refusal}
    {o : Host.Outcome State Fault Refusal} (h : SameButFor w r v (.refused q) o) : ∃ q', o = .refused q' := by
  cases h with
  | refused _ q' => exact ⟨q', rfl⟩

section
variable (s : State) (r : RegId) (v : Word)

/-- A trap hands over the state it was met in, with the same `epc` and `bd` (R210, R211). -/
theorem raise_sameButFor (w : Option RegId) (e : Exception) :
    SameButFor w r v (raise e s) (raise e (s.setX r v)) := by
  have hepc : (s.setX r v).restartAddress = s.restartAddress := by simp [State.restartAddress]
  rw [raise, raise, hepc, State.setX_ds]
  exact .fault e _ _ s

theorem writeResult_sameButFor (q : RegId) (u : Word) :
    SameButFor (some q) r v (writeResult q u s) (writeResult q u (s.setX r v)) := by
  rw [writeResult_eq, writeResult_eq, State.setX_setX_eq_keepX, State.keepX_advance]
  exact .next _

theorem writeUnlessOverflow_sameButFor (o : Bool) (q : RegId) (u : Word) :
    SameButFor (some q) r v (writeUnlessOverflow o q u s) (writeUnlessOverflow o q u (s.setX r v)) := by
  cases o with
  | true => exact raise_sameButFor s r v _ _
  | false => exact writeResult_sameButFor s r v q u

theorem loadWith_sameButFor (n : AccessSize) (f : BitVec n.bits → Word) (rt base : RegId) (offset : BitVec 16)
    (ha : effectiveAddress offset base (s.setX r v) = effectiveAddress offset base s) :
    SameButFor (some rt) r v (loadWith n f rt offset base s) (loadWith n f rt offset base (s.setX r v)) := by
  have hloc := locate_congr (s.setX_params r v) (effectiveAddress offset base s) n .data .load
  cases hl : locate s (effectiveAddress offset base s) n .data .load with
  | error e =>
    simp only [loadWith, memRead, ha, hloc, hl]
    exact raise_sameButFor s r v _ e
  | ok p =>
    simp only [loadWith, memRead, ha, hloc, hl, State.valueAt_setX, State.setX_setX_eq_keepX,
      State.keepX_advanceLoad]
    exact .next _

theorem storeWith_sameButFor (n : AccessSize) (rt base : RegId) (offset : BitVec 16)
    (ha : effectiveAddress offset base (s.setX r v) = effectiveAddress offset base s)
    (hd : (s.setX r v).x rt = s.x rt) :
    SameButFor none r v (storeWith n rt offset base s) (storeWith n rt offset base (s.setX r v)) := by
  have hloc := locate_congr (s.setX_params r v) (effectiveAddress offset base s) n .data .store
  cases hl : locate s (effectiveAddress offset base s) n .data .store with
  | error e =>
    simp only [storeWith, memWrite, ha, hloc, hl]
    exact raise_sameButFor s r v _ e
  | ok p =>
    simp only [storeWith, memWrite, ha, hd, hloc, hl, State.storeAt_setX, State.advance_setX]
    rw [State.setX_eq_keepX_none]
    exact .next _

theorem advanceTransfer_sameButFor (o : Option Word) :
    SameButFor none r v (.next (s.advanceTransfer o)) (.next ((s.setX r v).advanceTransfer o)) := by
  rw [State.advanceTransfer_setX, State.setX_eq_keepX_none]
  exact .next _

theorem link_sameButFor (q : RegId) (o : Option Word) :
    SameButFor (some q) r v (.next ((s.setX q (linkAddress s)).advanceTransfer o))
      (.next (((s.setX r v).setX q (linkAddress (s.setX r v))).advanceTransfer o)) := by
  have hlink : linkAddress (s.setX r v) = linkAddress s := by simp [linkAddress]
  rw [hlink, State.setX_setX_eq_keepX, State.keepX_advanceTransfer]
  exact .next _

end

/-- A register outside the read set influences no outcome of an instruction. -/
theorem exec_sameButFor (i : Instr) (s : State) {r : RegId} (v : Word) (hr : r ∉ reads i) :
    SameButFor (writes i) r v (exec i s) (exec i (s.setX r v)) := by
  cases exec_shape i with
  | result q f he hf hw =>
    rw [he, he, hf s r v hr, hw]
    exact writeResult_sameButFor s r v q _
  | checked q o f he ho hf hw =>
    rw [he, he, ho s r v hr, hf s r v hr, hw]
    exact writeUnlessOverflow_sameButFor s r v _ q _
  | load n f rt base offset he ha hw =>
    rw [he, he, hw]
    exact loadWith_sameButFor s r v n f rt base offset (ha s r v hr)
  | store n rt base offset he ha hd hw =>
    rw [he, he, hw]
    exact storeWith_sameButFor s r v n rt base offset (ha s r v hr) (hd s r v hr)
  | transfer f he hf hw =>
    rw [he, he, hf s r v hr, hw]
    exact advanceTransfer_sameButFor s r v _
  | link q f he hf hw =>
    rw [he, he, hf s r v hr, hw]
    exact link_sameButFor s r v q _
  | refusedLink q he =>
    rw [he, he]
    exact .refused _ _
  | reserved he =>
    rw [he, he]
    exact raise_sameButFor s r v _ _

/-- Settles O44: the three kinds of outcome, one by one. -/
theorem unreadRegistersDoNotMatter : Obligations.UnreadRegistersDoNotMatter := by
  intro s i r v hr
  have same := exec_sameButFor i s v hr
  refine ⟨fun t h => ?_, fun e epc bd st h => ?_, fun q h => ?_⟩ <;> rw [h] at same
  · exact same.of_next
  · exact same.of_fault
  · exact same.of_refused

end Sys2Proof.Machine
end

section
/-!
PROOFS. Alignment of `pc` and `npc` (R27), what the step does with what it fetches (R24, R25), and the invariant: every
step keeps it, and it holds at State.reset (R25, R26, R31, R33, R34, R54).
-/

namespace Sys2Proof.Machine

/-! ### Aligned addresses (R27) -/


theorem toNat_append_zero_mod_four {n : Nat} (a : BitVec n) : (a ++ 0b00#2).toNat % 4 = 0 := by
  rw [BitVec.toNat_append, BitVec.toNat_ofNat, Nat.shiftLeft_eq, Nat.zero_mod, Nat.or_zero]
  exact Nat.mul_mod_left a.toNat 4

theorem toNat_add_mod_four {a b : Word} (ha : a.toNat % 4 = 0) (hb : b.toNat % 4 = 0) : (a + b).toNat % 4 = 0 := by
  rw [BitVec.toNat_add]
  omega

/-- Sign extension adds high bits only. -/
theorem toNat_signExtend_mod_four {a : BitVec 18} (h : a.toNat % 4 = 0) : (a.signExtend 32).toNat % 4 = 0 := by
  rw [BitVec.toNat_signExtend, BitVec.toNat_setWidth]
  split <;> omega

theorem branchTarget_mod_four {s : State} (offset : BitVec 16) (h : s.pc.toNat % 4 = 0) :
    (branchTarget offset s).toNat % 4 = 0 :=
  toNat_add_mod_four (toNat_add_mod_four h rfl) (toNat_signExtend_mod_four (toNat_append_zero_mod_four offset))

theorem jumpTarget_mod_four (s : State) (index : BitVec 26) : (jumpTarget index s).toNat % 4 = 0 :=
  toNat_append_zero_mod_four _

/-- Taken or not, a branch leaves an aligned `npc`. -/
theorem branchWhen_npc_mod_four {c : Bool} {offset : BitVec 16} {s t : State} (hpc : s.pc.toNat % 4 = 0)
    (hnpc : s.npc.toNat % 4 = 0) (h : branchWhen c offset s = .next t) : t.npc.toNat % 4 = 0 := by
  cases h
  cases c with
  | true => exact branchTarget_mod_four offset hpc
  | false => exact toNat_add_mod_four hnpc rfl

/-- Settles O47: a transfer's target is aligned by its two low zero bits, unless it comes from a register. -/
theorem onlyRegisterJumpsMisalign : Obligations.OnlyRegisterJumpsMisalign := by
  intro s t i hjr hjalr hpc hnpc h
  refine ⟨exec_pc h ▸ hnpc, ?_⟩
  cases hc : isControlTransfer i with
  | false => exact exec_npc_of_not_transfer h hc ▸ toNat_add_mod_four hnpc rfl
  | true =>
    cases i
    case beq rs rt offset | bne rs rt offset => exact branchWhen_npc_mod_four hpc hnpc h
    case j index =>
      cases h
      exact jumpTarget_mod_four s index
    case jal index =>
      cases h
      exact jumpTarget_mod_four s index
    case jr rs => exact absurd rfl (hjr rs)
    case jalr rd rs => exact absurd rfl (hjalr rd rs)
    all_goals exact nomatch hc

/-! ### The step at a fetched instruction (R24, R25) -/

/-- The bytes of a word in the byte order of the run; `ReverseEndian` is 0 (R7, R40). -/
theorem State.valueAt_word (s : State) (p : Nat) : s.valueAt p .word = wordAt s p := by
  simp [State.valueAt, assemble, wordOfBytes, wordAt, State.bigEndianCPU, reverseEndian]

theorem fetchWord_of_fetches {s : State} {i : Instr} (h : Fetches s i) :
    ∃ w, fetchWord s = .next w ∧ decodeWord w = .ok i := by
  obtain ⟨hpc, p, ht, he, hw, hd⟩ := h
  refine ⟨wordAt s p, fetchWord_next_iff.mpr ⟨p, ?_, hw, (s.valueAt_word p).symm⟩, hd⟩
  exact locate_ok_iff.mpr ⟨(aligned_iff .word s.pc).mpr hpc, ht, (addressesExist_iff s.params p 4).mpr he⟩

/-- A step that fetches an instruction refuses its hazard, if any. -/
theorem step_of_fetches_hazard {s : State} {i : Instr} {r : Refusal} (hd : s.done = false) (hf : Fetches s i)
    (hh : hazard i s = some r) : step s = .refused r := by
  obtain ⟨w, hw, hdec⟩ := fetchWord_of_fetches hf
  simp [step, hd, hw, runWord, hdec, hh]

/-- A step that fetches an instruction free of hazards is its meaning. -/
theorem step_of_fetches {s : State} {i : Instr} (hd : s.done = false) (hf : Fetches s i)
    (hh : hazard i s = none) : step s = exec i s := by
  obtain ⟨w, hw, hdec⟩ := fetchWord_of_fetches hf
  simp [step, hd, hw, runWord, hdec, hh]

/-- Settles O31. -/
theorem stepRunsTheDecodedInstruction : Obligations.StepRunsTheDecodedInstruction :=
  fun _ _ hd hf hslot hload => step_of_fetches hd hf (hazard_eq_none_iff.mpr ⟨hslot, hload⟩)

/-- The end of a run is never in a delay slot (R250). -/
theorem State.done_of_ds {s : State} (h : s.ds = true) : s.done = false := by
  simp [State.done, h]

theorem hazard_of_transfer_in_slot {i : Instr} {s : State} (hd : s.ds = true) (hi : isControlTransfer i = true) :
    hazard i s = some (.controlTransferInDelaySlot s) := by
  simp [hazard, hd, hi]

/-- Settles O35: the first transfer, taken or not, leaves `ds` set, so the second is a hazard. -/
theorem transferInADelaySlotIsRefused : Obligations.TransferInADelaySlotIsRefused := by
  intro s t i k hi h hf hk
  have hslot : t.ds = true := (exec_ds h).trans hi
  exact step_of_fetches_hazard (State.done_of_ds hslot) hf (hazard_of_transfer_in_slot hslot hk)

/-! ### The invariant -/

/-- The bytes of a located access exist (R54). -/
theorem addressExists_of_locate {s : State} {v : Word} {n : AccessSize} {iord : IorD} {lors : LorS} {p a : Nat}
    (h : locate s v n iord lors = .ok p) (ha : p ≤ a ∧ a < p + n.bytes) : addressExists s.params a = true := by
  obtain ⟨-, -, hexist⟩ := locate_ok_iff.mp h
  obtain ⟨k, rfl⟩ := Nat.exists_eq_add_of_le ha.1
  exact (addressesExist_iff s.params p n.bytes).mp hexist k (by omega)

/-- A word that was fetched lies at an aligned `pc` (R43). -/
theorem pc_aligned_of_fetchWord {s : State} {w : Word} (h : fetchWord s = .next w) : s.pc.toNat % 4 = 0 := by
  obtain ⟨p, hloc, -, -⟩ := fetchWord_next_iff.mp h
  obtain ⟨hal, -, -⟩ := locate_ok_iff.mp hloc
  exact (aligned_iff .word s.pc).mp hal

/-- What the invariant says of memory and the written set (R31, R33, R54). -/
def State.MemoryInv (s : State) : Prop :=
  s.mem.wf ∧ (∀ c ∈ s.mem.cells, addressExists s.params c.1 = true)
    ∧ s.written.Pairwise (· < ·) ∧ ∀ a ∈ s.written, addressExists s.params a = true

theorem State.Inv.memoryInv {s : State} (h : s.Inv) : s.MemoryInv :=
  ⟨h.memoryCanonical, h.memoryExists, h.writtenRising, h.writtenExists⟩

/-- The memory of the invariant is that of the three fields it speaks of. -/
theorem State.MemoryInv.congr {s t : State} (h : s.MemoryInv) (hm : t.mem = s.mem) (hw : t.written = s.written)
    (hp : t.params = s.params) : t.MemoryInv := by
  unfold State.MemoryInv
  rw [hm, hw, hp]
  exact h

/-- A store where every byte exists keeps memory and the written set canonical and inside `PhysMem`. -/
theorem State.MemoryInv.storeAt {s : State} (h : s.MemoryInv) {v : Word} {n : AccessSize} {p : Nat}
    (d : BitVec n.bits) (hl : locate s v n .data .store = .ok p) : (s.storeAt p n d).MemoryInv := by
  obtain ⟨hwf, hcells, hrising, hwritten⟩ := h
  refine ⟨s.storeAt_wf hwf p n d, fun c hc => ?_, insertAddresses_pairwise n.bytes p s.written hrising,
    fun a ha => ?_⟩
  · rcases State.mem_storeAt_cells hc with hin | hold
    · exact addressExists_of_locate hl hin
    · exact hcells c hold
  · rcases State.mem_storeAt_written.mp ha with hin | hold
    · exact addressExists_of_locate hl hin
    · exact hwritten a hold

theorem exec_memoryInv {i : Instr} {s t : State} (hs : s.MemoryInv) (h : exec i s = .next t) : t.MemoryInv := by
  rcases exec_memory_cases h with ⟨hmem, hwritten⟩ | ⟨-, v, n, p, d, hl, hmem, hwritten⟩
  · exact hs.congr hmem hwritten (exec_params h)
  · exact (hs.storeAt d hl).congr hmem hwritten ((exec_params h).trans (s.storeAt_params p n d).symm)

/-- After an instruction that is no transfer, `npc` follows `pc` (R25). -/
theorem exec_sequential {i : Instr} {s t : State} (h : exec i s = .next t) (ht : t.ds = false) :
    t.npc = t.pc + 4#32 := by
  rw [exec_npc_of_not_transfer h ((exec_ds h).symm.trans ht), exec_pc h]

/-- A delay slot follows an aligned transfer that was not itself in one, so it lies at an aligned `pc` + 4 (R25). -/
theorem exec_delaySlotAligned {i : Instr} {s t : State} (hs : s.ds = false → s.npc = s.pc + 4#32)
    (hpc : s.pc.toNat % 4 = 0) (hh : hazard i s = none) (h : exec i s = .next t) (ht : t.ds = true) :
    t.pc.toNat % 4 = 0 := by
  obtain ⟨hslot, -⟩ := hazard_eq_none_iff.mp hh
  rw [exec_pc h, hs (hslot ((exec_ds h).symm.trans ht))]
  exact toNat_add_mod_four hpc rfl

/-- Settles O51: memory by what an instruction can do to it, the sequencing by R24, the load mark by R26. -/
theorem stepKeepsTheInvariant : Obligations.StepKeepsTheInvariant := by
  intro s t hs h
  rcases step_next_iff.mp h with ⟨-, rfl⟩ | ⟨-, w, i, hfetch, -, hh, hexec⟩
  · exact hs
  · obtain ⟨hwf, hcells, hrising, hwritten⟩ := exec_memoryInv hs.memoryInv hexec
    exact ⟨hwf, hcells, hrising, hwritten, exec_sequential hexec,
      exec_delaySlotAligned hs.sequential (pc_aligned_of_fetchWord hfetch) hh hexec, exec_ld_ne_zero hexec⟩

/-! ### Launch and reset (R34, R240) -/

/-- The invariant holds at every launch over canonical memory inside `PhysMem`. -/
theorem State.launch_inv (p : Params) (g : Vector Word 31) (m : Memory) (hm : m.wf)
    (he : ∀ c ∈ m.cells, addressExists p c.1 = true) : (State.launch p g m).Inv where
  memoryCanonical := hm
  memoryExists := he
  writtenRising := List.Pairwise.nil
  writtenExists := nofun
  sequential := fun _ => rfl
  delaySlotAligned := nofun
  loadMark := nofun

/-- Settles O52. -/
theorem resetHasTheInvariant : Obligations.ResetHasTheInvariant :=
  State.launch_inv Params.default _ Memory.empty Memory.empty_wf nofun

theorem State.reset_x (r : RegId) : State.reset.x r = 0#32 := by
  unfold State.x
  split
  · rfl
  · simp [State.reset, State.launch]

/-- The default `PhysMem` is the whole 32-bit space (entry 4). -/
theorem addressExists_default {a : Nat} (h : a < 2 ^ 32) : addressExists Params.default a = true := by
  have hle : a ≤ 0xFFFFFFFF := by omega
  simpa [addressExists, Params.default] using hle

/-- Settles O55. -/
theorem resetIsTheLaunchOfZeros : Obligations.ResetIsTheLaunchOfZeros :=
  ⟨State.reset_x, fun _ => rfl, rfl, rfl, rfl, rfl, fun _ ha => addressExists_default ha⟩

end Sys2Proof.Machine
end

section
/-!
PROOFS. An encoded instruction decodes to itself, as a word (R81, R82, R86) and as the four bytes of the word in either
byte order (R40, R41, R70, R242).
-/

namespace Sys2Proof

/-! ### The decoder on encoded words -/

/-- Major opcode SPECIAL sends a word to the function table (R80, R81). -/
theorem decodeWord_of_special {w : Word} (h : opcodeOf w = 0#6) : decodeWord w = decodeSpecial w := by
  unfold decodeWord
  rw [h]
  rfl

@[simp] theorem decodeWord_encodeReg3 (rs rt rd : RegId) (f : BitVec 6) :
    decodeWord (encodeReg3 rs rt rd f) = decodeSpecial (encodeReg3 rs rt rd f) :=
  decodeWord_of_special (encodeReg3_fields rs rt rd f).1

@[simp] theorem decodeWord_encodeShift (rt rd : RegId) (sa : BitVec 5) (f : BitVec 6) :
    decodeWord (encodeShift rt rd sa f) = decodeSpecial (encodeShift rt rd sa f) :=
  decodeWord_of_special (encodeShift_fields rt rd sa f).1

/-- The decoder reads back the fields of each format, and finds the should-be-zero fields zero (R72 to R78, R86). -/
theorem decodeWord_encode (i : Instr) : decodeWord (encode i) = .ok i := by
  cases i
  case add | addu | and | jalr | jr | nor | or | sllv | slt | srav | srlv | sub | subu | xor =>
    simp [encode, decodeSpecial, encodeReg3_fields, whenZero]
  case sll | sra | srl => simp [encode, decodeSpecial, encodeShift_fields, whenZero]
  case j | jal => simp [encode, decodeWord, encodeJump_fields]
  case lui => simp [encode, decodeWord, encodeImm_fields, whenZero]
  case addi | andi | beq | bne | lb | lbu | lh | lhu | lw | lwu | ori | sb | sh | slti | sw | xori =>
    simp [encode, decodeWord, encodeImm_fields]

/-! ### Words as bytes -/

/-- The bytes of a word in address order, one by one. -/
theorem bytesOfWord_eq (bigEndian : Bool) (w : Word) :
    bytesOfWord bigEndian w = [byteOf bigEndian 4 w 0, byteOf bigEndian 4 w 1, byteOf bigEndian 4 w 2,
      byteOf bigEndian 4 w 3] := rfl

/-- A word laid out in either byte order is decoded as that word, and the bytes after it are handed back. -/
theorem decodeBytes_bytesOfWord (bigEndian : Bool) {w : Word} {i : Instr} (h : decodeWord w = .ok i)
    (rest : List Byte) : decodeBytes bigEndian (bytesOfWord bigEndian w ++ rest) = .ok (i, rest) := by
  have joined : wordOfBytes bigEndian (byteOf bigEndian 4 w 0) (byteOf bigEndian 4 w 1) (byteOf bigEndian 4 w 2)
      (byteOf bigEndian 4 w 3) = w := Machine.assemble_byteOf_word bigEndian w
  simp only [bytesOfWord_eq, List.cons_append, List.nil_append, decodeBytes, joined, h]

/-- Settles O4. -/
theorem decodeOfEncodedBytes : Obligations.DecodeOfEncodedBytes :=
  fun i bigEndian rest => decodeBytes_bytesOfWord bigEndian (decodeWord_encode i) rest

end Sys2Proof
end

section
/-!
PROOFS. What a translation may answer (R52), and what the default translation answers (R53).
-/

namespace Sys2Proof.Machine

/-! ### Physical addresses (R6, R52 (b)) -/

theorem physicalAddress_mod_four (psize word : Nat) (v : Word) :
    physicalAddress psize word v % 4 = v.toNat % 4 := by
  unfold physicalAddress
  omega

theorem physicalAddress_lt {psize : Nat} (h : 2 ≤ psize) (word : Nat) (v : Word) :
    physicalAddress psize word v < 2 ^ psize := by
  have hword : word % 2 ^ (psize - 2) < 2 ^ (psize - 2) := Nat.mod_lt _ (Nat.two_pow_pos _)
  have hsplit : 2 ^ psize = 2 ^ (psize - 2) * 4 := (Nat.pow_sub_mul_pow 2 h).symm
  unfold physicalAddress
  omega

/-- With 32 bits, the physical address in the word of `v` itself is `v`. -/
theorem physicalAddress_self (v : Word) : physicalAddress 32 (v.toNat / 4) v = v.toNat := by
  have := v.isLt
  unfold physicalAddress
  omega

/-! ### Every answer of a translation (R52) -/

/-- A row for TLB Modified decides stores only (R52 (c)). -/
theorem lors_eq_store_of_rowCovers {r : TranslationRow} {v : Word} {iord : IorD} {lors : LorS}
    (h : rowCovers r v iord lors = true) (hm : r.mapping = .tlbModified) : lors = .store := by
  simpa [hm] using (Bool.and_eq_true_iff.mp h).2

/-- The answers of a translation of `v`: a physical place, or an exception R52 (c) admits for the access. -/
inductive Translated (psize : Nat) (v : Word) (iord : IorD) (lors : LorS) : Except Exception Nat → Prop where
  | place (word : Nat) : Translated psize v iord lors (.ok (physicalAddress psize word v))
  | tlbRefill : Translated psize v iord lors (.error (.tlbRefill (accessKind iord lors) v))
  | tlbInvalid : Translated psize v iord lors (.error (.tlbInvalid (accessKind iord lors) v))
  | tlbModified (h : lors = .store) : Translated psize v iord lors (.error (.tlbModified v))
  | addressError : Translated psize v iord lors (.error (.addressError (accessKind iord lors) v))

/-- A row that covers the access answers by its mapping; with no such row the identity answers. -/
theorem addressTranslation_cases (t : AddressTranslation) (v : Word) (iord : IorD) (lors : LorS) :
    Translated t.psize v iord lors (addressTranslation t v iord lors) := by
  unfold addressTranslation
  split
  next r hr =>
    have hcovers := List.find?_some hr
    cases hm : r.mapping with
    | physical word => exact .place _
    | tlbRefill => exact .tlbRefill
    | tlbInvalid => exact .tlbInvalid
    | tlbModified => exact .tlbModified (lors_eq_store_of_rowCovers hcovers hm)
    | addressError => exact .addressError
  next => exact .place _

/-- Settles O28. -/
theorem translationKeepsItsRequirements : Obligations.TranslationKeepsItsRequirements := by
  intro t v iord lors
  have hanswer := addressTranslation_cases t v iord lors
  generalize addressTranslation t v iord lors = answer at hanswer ⊢
  cases hanswer with
  | place word =>
    refine ⟨fun p hp => ?_, nofun⟩
    cases hp
    exact ⟨physicalAddress_mod_four _ word v, fun h => physicalAddress_lt h word v⟩
  | tlbRefill => exact ⟨nofun, fun e he => .inl (Except.error.inj he).symm⟩
  | tlbInvalid => exact ⟨nofun, fun e he => .inr (.inl (Except.error.inj he).symm)⟩
  | tlbModified h => exact ⟨nofun, fun e he => .inr (.inr (.inl ⟨(Except.error.inj he).symm, h⟩))⟩
  | addressError => exact ⟨nofun, fun e he => .inr (.inr (.inr (Except.error.inj he).symm))⟩

/-! ### The default translation (R53) -/

theorem addressTranslation_identity (v : Word) (iord : IorD) (lors : LorS) :
    addressTranslation AddressTranslation.identity v iord lors = .ok v.toNat :=
  congrArg Except.ok (physicalAddress_self v)

theorem aligned_eq_false_iff (n : AccessSize) (v : Word) : aligned n v = false ↔ v.toNat % n.bytes ≠ 0 := by
  rw [← Bool.not_eq_true, aligned_iff]

/-- Settles O29: of the three exceptions of an access, the one of the translation cannot arise. -/
theorem identityTranslationNeverRaises : Obligations.IdentityTranslationNeverRaises := by
  intro s v n iord lors hid
  have htr : addressTranslation s.params.translation v iord lors = .ok v.toNat := by
    rw [hid, addressTranslation_identity]
  refine ⟨htr, fun e he => ?_⟩
  rcases locate_error_iff.mp he with ⟨hal, rfl⟩ | ⟨-, herr⟩ | ⟨p, hal, -, -, rfl⟩
  · exact .inl ⟨(aligned_eq_false_iff n v).mp hal, rfl⟩
  · exact nomatch htr.symm.trans herr
  · exact .inr ⟨(aligned_iff n v).mp hal, rfl⟩

end Sys2Proof.Machine
end

section
/-!
PROOFS. Reading back what was stored or placed (R40, R41, R49, R242), every answer of a fetch (R48), and that the word a run
fetches is the one its launch placed there (R59).
-/

namespace Sys2Proof.Machine

/-! ### The value of bytes in memory (R40) -/

theorem State.bigEndianCPU_eq (s : State) : s.bigEndianCPU = s.params.bigEndianMem :=
  Bool.xor_false _

/-- A value is made of its own bytes only. -/
theorem assemble_congr (bigEndian : Bool) {b c : Nat → Byte} (n : AccessSize) (h : ∀ k < n.bytes, b k = c k) :
    assemble bigEndian b n = assemble bigEndian c n := by
  cases n with
  | byte => exact h 0 (by decide)
  | half => simp only [assemble, h 0 (by decide), h 1 (by decide)]
  | word => simp only [assemble, h 0 (by decide), h 1 (by decide), h 2 (by decide), h 3 (by decide)]

/-- The value at `p` depends on the byte order of the run and on its own bytes. -/
theorem State.valueAt_congr {s t : State} (hp : t.params = s.params) {p : Nat} {n : AccessSize}
    (hm : ∀ k < n.bytes, t.mem.read (p + k) = s.mem.read (p + k)) : t.valueAt p n = s.valueAt p n := by
  rw [State.valueAt, State.valueAt, State.bigEndianCPU, State.bigEndianCPU, hp]
  exact assemble_congr _ n hm

/-- A word is the value where its four bytes lie in the byte order of the run. -/
theorem State.valueAt_word_of_bytes {s : State} {p : Nat} {w : Word}
    (h : ∀ k < 4, s.mem.read (p + k) = byteOf s.bigEndianCPU 4 w k) : s.valueAt p .word = w :=
  (assemble_congr _ .word h).trans (assemble_byteOf_word _ w)

/-! ### A stored word read at every width (R49) -/

/-- An access inside a located word is located, where it is aligned and translated into that word. -/
theorem locate_inside_word {s : State} {v u : Word} {p k : Nat} {n : AccessSize}
    (hw : locate s v .word .data .store = .ok p) (ha : aligned n u = true)
    (ht : addressTranslation s.params.translation u .data .load = .ok (p + k)) (hk : k + n.bytes ≤ 4) :
    locate s u n .data .load = .ok (p + k) := by
  refine locate_ok_iff.mpr ⟨ha, ht, (addressesExist_iff _ _ _).mpr fun j hj => ?_⟩
  refine addressExists_of_locate hw ⟨by omega, ?_⟩
  show p + k + j < p + 4
  omega

/-- A value inside a stored word is made of bytes of that word. -/
theorem State.valueAt_storeAt_word {s : State} (hm : s.mem.wf) (p : Nat) (d : Word) {k : Nat} {n : AccessSize}
    (hk : k + n.bytes ≤ 4) : (s.storeAt p .word d).valueAt (p + k) n
      = assemble s.bigEndianCPU (fun j => byteOf s.bigEndianCPU 4 d (k + j)) n := by
  refine assemble_congr _ n fun j hj => ?_
  have hin : k + j < AccessSize.word.bytes := show k + j < 4 by omega
  rw [Nat.add_assoc, s.read_storeAt_inside hm p .word d hin]

/-- An aligned read that is translated into a stored word answers bytes of that word. -/
theorem memRead_storeAt_word {s : State} (hm : s.mem.wf) {v u : Word} {p k : Nat} {n : AccessSize} (d : Word)
    (hw : locate s v .word .data .store = .ok p) (ha : aligned n u = true)
    (ht : addressTranslation s.params.translation u .data .load = .ok (p + k)) (hk : k + n.bytes ≤ 4) :
    memRead (s.storeAt p .word d) u n
      = .ok (assemble s.bigEndianCPU (fun j => byteOf s.bigEndianCPU 4 d (k + j)) n) := by
  refine memRead_ok_iff.mpr ⟨p + k, ?_, (State.valueAt_storeAt_word hm p d hk).symm⟩
  rw [locate_congr (s.storeAt_params p .word d), locate_inside_word hw ha ht hk]

/-- A multiple of 4 is aligned for every size. -/
theorem aligned_of_word {v : Word} (h : aligned .word v = true) (n : AccessSize) : aligned n v = true := by
  have hdvd : n.bytes ∣ 4 := by cases n <;> decide
  rw [aligned_iff] at h ⊢
  exact Nat.mod_eq_zero_of_dvd (hdvd.trans (Nat.dvd_of_mod_eq_zero h))

theorem aligned_half_add_two {v : Word} (h : aligned .word v = true) : aligned .half (v + 2#32) = true := by
  have hv : v.toNat % 4 = 0 := (aligned_iff .word v).mp h
  refine (aligned_iff .half _).mpr (show (v + 2#32).toNat % 2 = 0 from ?_)
  rw [BitVec.toNat_add, BitVec.toNat_ofNat]
  omega

/-- Byte `k` in address order of a word (R40). -/
theorem byteOf_word (bigEndian : Bool) (d : Word) {k : Nat} (hk : k < 4) :
    byteOf bigEndian 4 d k = d.extractLsb' (if bigEndian = true then 24 - 8 * k else 8 * k) 8 := by
  cases bigEndian with
  | true => rw [byteOf, if_pos rfl, if_pos rfl, show 8 * (4 - 1 - k) = 24 - 8 * k by omega]
  | false => rfl

/-- Bytes 0 and 1 of a word make its high half in big-endian order, its low half in little-endian order. -/
theorem assemble_lower_half (bigEndian : Bool) (d : Word) :
    assemble bigEndian (fun j => byteOf bigEndian 4 d (0 + j)) .half
      = d.extractLsb' (if bigEndian = true then 16 else 0) 16 := by
  cases bigEndian <;> exact BitVec.extractLsb'_append_extractLsb'_eq_extractLsb' rfl

/-- Bytes 2 and 3 make the other half. -/
theorem assemble_upper_half (bigEndian : Bool) (d : Word) :
    assemble bigEndian (fun j => byteOf bigEndian 4 d (2 + j)) .half
      = d.extractLsb' (if bigEndian = true then 0 else 16) 16 := by
  cases bigEndian <;> exact BitVec.extractLsb'_append_extractLsb'_eq_extractLsb' rfl

/-- Settles O30. -/
theorem mixedWidthAccess : Obligations.MixedWidthAccess := by
  intro s t v d p hm hloc hwrite htr
  obtain ⟨q, hq, rfl⟩ := memWrite_ok_iff.mp hwrite
  obtain rfl : p = q := Except.ok.inj (hloc.symm.trans hq)
  obtain ⟨hal, -, -⟩ := locate_ok_iff.mp hloc
  have htr0 : addressTranslation s.params.translation v .data .load = .ok (p + 0) := by
    simpa using htr 0 (by decide)
  rw [← s.bigEndianCPU_eq]
  refine ⟨?_, fun k hk => ?_, ?_, ?_⟩
  · rw [memRead_storeAt_word hm d hloc hal htr0 (by decide)]
    simp only [Nat.zero_add, assemble_byteOf_word]
  · rw [memRead_storeAt_word hm d hloc (aligned_byte _) (htr k hk) (by exact hk), ← byteOf_word _ d hk]
    rfl
  · rw [memRead_storeAt_word hm d hloc (aligned_of_word hal .half) htr0 (by decide), assemble_lower_half]
  · rw [memRead_storeAt_word hm d hloc (aligned_half_add_two hal) (htr 2 (by decide)) (by decide),
      assemble_upper_half]

/-! ### Every answer of a fetch (R48, R208) -/

/-- A step whose fetch does not land raises what the access raises. -/
theorem step_of_locate_error {s : State} {e : Exception} (hd : s.done = false)
    (h : locate s s.pc .word .instruction .load = .error e) : step s = trapOutcome e s := by
  simp only [step, hd, fetchWord, h]
  rfl

theorem step_of_fetchWord_refused {s : State} {r : Refusal} (hd : s.done = false) (h : fetchWord s = .refused r) :
    step s = .refused r := by
  simp [step, hd, h]

theorem step_of_fetchWord {s : State} {w : Word} (hd : s.done = false) (h : fetchWord s = .next w) :
    step s = runWord w s := by
  simp [step, hd, h]

/-- A word with a byte that a store has written is refused (R59). -/
theorem fetchWord_of_written {s : State} {p k : Nat} (h : locate s s.pc .word .instruction .load = .ok p)
    (hk : k < 4) (hw : p + k ∈ s.written) : fetchWord s = .refused (.fetchAfterStore s) := by
  have htest : (List.range 4).any (fun k => s.written.contains (p + k)) = true :=
    List.any_eq_true.mpr ⟨k, List.mem_range.mpr hk, List.contains_iff_mem.mpr hw⟩
  simp only [fetchWord, h, htest, if_true]

theorem addressesExist_eq_false {q : Params} {p n k : Nat} (hk : k < n) (h : addressExists q (p + k) = false) :
    addressesExist q p n = false :=
  List.all_eq_false.mpr ⟨k, List.mem_range.mpr hk, Bool.not_eq_true _ ▸ h⟩

/-- Settles O32. -/
theorem fetchAnswers : Obligations.FetchAnswers := by
  intro s hd
  refine ⟨fun hmis => ?_, fun hpc e he => ?_, fun hpc p hp => ?_⟩
  · exact step_of_locate_error hd (locate_error_iff.mpr (.inl ⟨(aligned_eq_false_iff .word s.pc).mpr hmis, rfl⟩))
  · exact step_of_locate_error hd (locate_error_iff.mpr (.inr (.inl ⟨(aligned_iff .word s.pc).mpr hpc, he⟩)))
  · have hal : aligned .word s.pc = true := (aligned_iff .word s.pc).mpr hpc
    have landed (hexist : ∀ k < 4, addressExists s.params (p + k) = true) :
        locate s s.pc .word .instruction .load = .ok p :=
      locate_ok_iff.mpr ⟨hal, hp, (addressesExist_iff s.params p 4).mpr hexist⟩
    refine ⟨fun ⟨k, hk, hmissing⟩ => ?_, fun hexist ⟨k, hk, hw⟩ => ?_, fun hexist hw => ?_⟩
    · have hnone : addressesExist s.params p 4 = false := addressesExist_eq_false hk hmissing
      exact step_of_locate_error hd (locate_error_iff.mpr (.inr (.inr ⟨p, hal, hp, hnone, rfl⟩)))
    · exact step_of_fetchWord_refused hd (fetchWord_of_written (landed hexist) hk hw)
    · exact step_of_fetchWord hd (fetchWord_next_iff.mpr ⟨p, landed hexist, hw, (s.valueAt_word p).symm⟩)

/-! ### A word placed at `pc` (R41, R242) -/

section
variable (s : State) (p : Nat) (w : Word)

@[simp] theorem State.placeWord_params : (s.placeWord p w).params = s.params := rfl
@[simp] theorem State.placeWord_pc : (s.placeWord p w).pc = s.pc := rfl

theorem State.read_placeWord_inside (hm : s.mem.wf) {k : Nat} (hk : k < 4) :
    (s.placeWord p w).mem.read (p + k) = storedByte s 4 w k := by
  have hlen : k < (bytesOfWord s.params.bigEndianMem w).length := by simpa [bytesOfWord] using hk
  exact (Memory.read_writeBytes_inside _ s.mem hm p k hlen).trans (by simp [bytesOfWord, byteOf, storedByte])

theorem State.read_placeWord_outside {a : Nat} (h : a < p ∨ p + 4 ≤ a) :
    (s.placeWord p w).mem.read a = s.mem.read a :=
  Memory.read_writeBytes_outside _ s.mem p (by simpa [bytesOfWord] using h)

/-- The launch's bytes are not written by a store, so the written set does not hold them (R33). -/
theorem State.notMem_placeWord_written {k : Nat} (hk : k < 4) : p + k ∉ (s.placeWord p w).written := by
  intro h
  have hout : p + k < p ∨ p + 4 ≤ p + k := by
    simpa only [Bool.or_eq_true, decide_eq_true_eq] using (List.mem_filter.mp h).2
  omega

end

theorem State.withFetchWord_eq {s : State} {p : Nat} (w : Word) (h : locate s s.pc .word .instruction .load = .ok p) :
    s.withFetchWord 32 w.toNat = s.placeWord p w := by
  have hw : BitVec.ofNat 32 (w.toNat % 2 ^ 32) = w := by
    rw [Nat.mod_eq_of_lt w.isLt, BitVec.ofNat_toNat, BitVec.setWidth_eq]
  simp only [State.withFetchWord, State.placeAtPc, hw, h]

theorem fetchWord_placeWord {s : State} {p : Nat} (w : Word) (hm : s.mem.wf)
    (h : locate s s.pc .word .instruction .load = .ok p) : fetchWord (s.placeWord p w) = .next w := by
  refine fetchWord_next_iff.mpr ⟨p, ?_, fun k hk => s.notMem_placeWord_written p w hk, ?_⟩
  · rw [locate_congr (s.placeWord_params p w), s.placeWord_pc, h]
  · refine (State.valueAt_word_of_bytes fun k hk => ?_).symm
    rw [s.read_placeWord_inside p w hm hk, State.bigEndianCPU_eq]
    rfl

/-- Settles O57. -/
theorem placedWordIsFetched : Obligations.PlacedWordIsFetched := by
  intro s w p hm h
  rw [State.withFetchWord_eq w h]
  exact ⟨fun k hk => s.read_placeWord_inside p w hm hk, fun a ha => s.read_placeWord_outside p w ha,
    fetchWord_placeWord w hm h⟩

/-! ### What a run keeps of its launch (R48, R59) -/

/-- A run of one step more steps once, then runs on. -/
theorem run_succ_next_iff {M : Host.Core} {n : Nat} {s t : M.State} :
    M.run (n + 1) s = .next t ↔ ∃ u, M.step s = .next u ∧ M.run n u = .next t := by
  rw [Host.Core.run]
  cases M.step s <;> simp

/-- A property that every step keeps holds along every run from a state that has it. -/
theorem run_keeps {M : Host.Core} {P : M.State → Prop} (hstep : ∀ s t, P s → M.step s = .next t → P t)
    {n : Nat} {s t : M.State} (hs : P s) (h : M.run n s = .next t) : P t := by
  induction n generalizing s with
  | zero =>
    cases h
    exact hs
  | succ n ih =>
    obtain ⟨u, hu, hrun⟩ := run_succ_next_iff.mp h
    exact ih (hstep s u hs hu) hrun

/-- `t` has the parameters of `s` and, outside its written set, the bytes of `s`. -/
def State.UnwrittenAsIn (s t : State) : Prop :=
  t.params = s.params ∧ ∀ a, a ∉ t.written → t.mem.read a = s.mem.read a

/-- A byte that is not in the written set after a step was not in it before, and the step left it alone. -/
theorem State.UnwrittenAsIn.after_step {s t u : State} (h : s.UnwrittenAsIn t) (hstep : step t = .next u) :
    s.UnwrittenAsIn u := by
  obtain ⟨hp, hread⟩ := h
  obtain ⟨hgrows, hchanged⟩ := changedBytesAreInTheWrittenSet t u hstep
  refine ⟨(parametersAreFixed t u hstep).trans hp, fun a ha => ?_⟩
  exact (not_imp_comm.mp (hchanged a) ha).trans (hread a (mt (hgrows a) ha))

/-- A fetch meets no written byte, so it answers the word of `s`, where `s` has no written byte itself. -/
theorem State.UnwrittenAsIn.fetchWord_eq {s t : State} {w : Word} (h : s.UnwrittenAsIn t) (hs : s.written = [])
    (hf : fetchWord t = .next w) : fetchWord { s with pc := t.pc } = .next w := by
  obtain ⟨hp, hread⟩ := h
  obtain ⟨p, hloc, hw, rfl⟩ := fetchWord_next_iff.mp hf
  refine fetchWord_next_iff.mpr ⟨p, ?_, by simp [hs], State.valueAt_congr hp fun k hk => hread _ (hw k hk)⟩
  rw [← hloc]
  exact locate_congr hp.symm _ _ _ _

/-- Settles O50. -/
theorem fetchedCodeIsTheLaunchedCode : Obligations.FetchedCodeIsTheLaunchedCode := by
  intro p g m n t w hrun hf
  have kept : (State.launch p g m).UnwrittenAsIn t :=
    run_keeps (M := Sys2Proof.core) (fun _ _ h => h.after_step) ⟨rfl, fun _ _ => rfl⟩ hrun
  exact kept.fetchWord_eq rfl hf

end Sys2Proof.Machine
end

section
/-!
PROOFS. The encoder, the strict decoder and the opcode table agree (30_encoding.md, R80 to R87): a word decodes exactly
to the instruction it encodes, and it decodes at all exactly when it matches a row of the table. From it: a step refuses
every other word. Last, what a destination of register 0 leaves unchanged (R88).
-/

namespace Sys2Proof

open BitVec

/-! ### Words put together from their fields (R72 to R78) -/

/-- A word with the fixed fields of format REG3 is a REG3 word (R72). -/
theorem encodeReg3_of_fields {w : Word} {rs rt rd : RegId} {f : BitVec 6} (hop : opcodeOf w = 0#6) (hrs : rsOf w = rs)
    (hrt : rtOf w = rt) (hrd : rdOf w = rd) (hsa : saOf w = 0#5) (hf : functionOf w = f) :
    encodeReg3 rs rt rd f = w := by
  rw [← word_eq_sixFields w, hop, hrs, hrt, hrd, hsa, hf]
  rfl

/-- A word with the fixed fields of format SHIFT is a SHIFT word (R73). -/
theorem encodeShift_of_fields {w : Word} {f : BitVec 6} (hop : opcodeOf w = 0#6) (hrs : rsOf w = 0#5)
    (hf : functionOf w = f) : encodeShift (rtOf w) (rdOf w) (saOf w) f = w := by
  conv_rhs => rw [← word_eq_sixFields w, hop, hrs, hf]
  rfl

/-- Every word is the IMM, MEM or BR word of its opcode and operands (R75, R76, R77). -/
theorem encodeImm_of_fields {w : Word} {opcode : BitVec 6} {rs : RegId} (hop : opcodeOf w = opcode)
    (hrs : rsOf w = rs) : encodeImm opcode rs (rtOf w) (immediateOf w) = w := by
  rw [← hop, ← hrs]
  exact word_eq_fourFields w

/-- Every word is the JMP word of its opcode and index (R78). -/
theorem encodeJump_of_fields {w : Word} {opcode : BitVec 6} (hop : opcodeOf w = opcode) :
    encodeJump opcode (indexOf w) = w := by
  rw [← hop]
  exact word_eq_twoFields w

/-! ### A word that decodes is an encoding (R80, R81, R86) -/

theorem whenZero_eq_ok_iff {zeros : Bool} {w : Word} {i k : Instr} :
    whenZero zeros w i = .ok k ↔ zeros = true ∧ i = k := by
  cases zeros <;> simp [whenZero]

/-- A SPECIAL word that decodes has the function and the zero fields of the instruction; its other fields are the
operands (R81). -/
theorem encode_of_decodeSpecial {w : Word} {i : Instr} (hop : opcodeOf w = 0#6) (h : decodeSpecial w = .ok i) :
    encode i = w := by
  unfold decodeSpecial at h
  split at h
  -- SLL, SRL, SRA
  case h_1 hf | h_2 hf | h_3 hf =>
    obtain ⟨hrs, rfl⟩ := whenZero_eq_ok_iff.mp h
    exact encodeShift_of_fields hop (eq_of_beq hrs) hf
  -- JR
  case h_7 hf =>
    obtain ⟨hzero, rfl⟩ := whenZero_eq_ok_iff.mp h
    simp only [Bool.and_eq_true, beq_iff_eq] at hzero
    obtain ⟨⟨hrt, hrd⟩, hsa⟩ := hzero
    exact encodeReg3_of_fields hop rfl hrt hrd hsa hf
  -- JALR
  case h_8 hf =>
    obtain ⟨hzero, rfl⟩ := whenZero_eq_ok_iff.mp h
    simp only [Bool.and_eq_true, beq_iff_eq] at hzero
    obtain ⟨hrt, hsa⟩ := hzero
    exact encodeReg3_of_fields hop rfl hrt rfl hsa hf
  -- no function of the table
  case h_18 => exact nomatch h
  -- the rows with three registers
  all_goals
    next hf =>
      obtain ⟨hsa, rfl⟩ := whenZero_eq_ok_iff.mp h
      exact encodeReg3_of_fields hop rfl rfl rfl (eq_of_beq hsa) hf

/-- A word that decodes is the word of what it decodes to: the decoder looks at every bit (R80, R86). -/
theorem encode_of_decodeWord {w : Word} {i : Instr} (h : decodeWord w = .ok i) : encode i = w := by
  unfold decodeWord at h
  split at h
  -- SPECIAL
  case h_1 hop => exact encode_of_decodeSpecial hop h
  -- J, JAL
  case h_2 hop | h_3 hop =>
    cases h
    exact encodeJump_of_fields hop
  -- LUI
  case h_11 hop =>
    obtain ⟨hrs, rfl⟩ := whenZero_eq_ok_iff.mp h
    exact encodeImm_of_fields hop (eq_of_beq hrs)
  -- no opcode of the table
  case h_21 => exact nomatch h
  -- the other rows of formats IMM, MEM and BR
  all_goals
    next hop =>
      cases h
      exact encodeImm_of_fields hop rfl

/-- Settles O3. -/
theorem encodeOfDecode : Obligations.EncodeOfDecode := fun _ _ => encode_of_decodeWord

/-- Settles O2. -/
theorem decodeOfEncode : Obligations.DecodeOfEncode := decodeWord_encode

/-! ### The one refusal of the decoder (R87 (b)) -/

theorem whenZero_error {zeros : Bool} {w : Word} {i : Instr} {e : DecodeError} (h : whenZero zeros w i = .error e) :
    e = .unknownEncoding w := by
  cases zeros with
  | false => exact (Except.error.inj h).symm
  | true => exact nomatch h

theorem decodeSpecial_error {w : Word} {e : DecodeError} (h : decodeSpecial w = .error e) :
    e = .unknownEncoding w := by
  unfold decodeSpecial at h
  split at h
  -- no function of the table
  case h_18 => exact (Except.error.inj h).symm
  -- a row with fields that must be zero
  all_goals exact whenZero_error h

theorem decodeWord_error {w : Word} {e : DecodeError} (h : decodeWord w = .error e) : e = .unknownEncoding w := by
  unfold decodeWord at h
  split at h
  -- SPECIAL
  case h_1 => exact decodeSpecial_error h
  -- LUI
  case h_11 => exact whenZero_error h
  -- no opcode of the table
  case h_21 => exact (Except.error.inj h).symm
  -- a row that refuses no word
  all_goals exact nomatch h

/-! ### Words that match a row of the opcode table (R82) -/

/-- Where a mask keeps a whole field, the field is that of the masked word. -/
theorem extractLsb'_of_masked {w m p : Word} {start len : Nat} {v : BitVec len} (h : w &&& m = p)
    (hm : m.extractLsb' start len = allOnes len) (hp : p.extractLsb' start len = v) :
    w.extractLsb' start len = v := by
  rw [← hp, ← h, extractLsb'_and, hm, and_allOnes]

/-- The mask of REG3 keeps the opcode, the zero field and the function (R72). -/
theorem encodeReg3_of_mask {w : Word} {f : BitVec 6} (h : w &&& 0xFC0007FF#32 = encodeReg3 0#5 0#5 0#5 f) :
    encodeReg3 (rsOf w) (rtOf w) (rdOf w) f = w :=
  have ⟨hop, _, _, _, hsa, hf⟩ := encodeReg3_fields 0#5 0#5 0#5 f
  encodeReg3_of_fields (extractLsb'_of_masked h rfl hop) rfl rfl rfl (extractLsb'_of_masked h rfl hsa)
    (extractLsb'_of_masked h rfl hf)

/-- The mask of JALR keeps `rt` as well (R74). -/
theorem encodeReg3_of_mask_link {w : Word} {f : BitVec 6} (h : w &&& 0xFC1F07FF#32 = encodeReg3 0#5 0#5 0#5 f) :
    encodeReg3 (rsOf w) 0#5 (rdOf w) f = w :=
  have ⟨hop, _, hrt, _, hsa, hf⟩ := encodeReg3_fields 0#5 0#5 0#5 f
  encodeReg3_of_fields (extractLsb'_of_masked h rfl hop) rfl (extractLsb'_of_masked h rfl hrt) rfl
    (extractLsb'_of_masked h rfl hsa) (extractLsb'_of_masked h rfl hf)

/-- The mask of JR keeps all fields but `rs` (R74). -/
theorem encodeReg3_of_mask_jump {w : Word} {f : BitVec 6} (h : w &&& 0xFC1FFFFF#32 = encodeReg3 0#5 0#5 0#5 f) :
    encodeReg3 (rsOf w) 0#5 0#5 f = w :=
  have ⟨hop, _, hrt, hrd, hsa, hf⟩ := encodeReg3_fields 0#5 0#5 0#5 f
  encodeReg3_of_fields (extractLsb'_of_masked h rfl hop) rfl (extractLsb'_of_masked h rfl hrt)
    (extractLsb'_of_masked h rfl hrd) (extractLsb'_of_masked h rfl hsa) (extractLsb'_of_masked h rfl hf)

/-- The mask of SHIFT keeps the opcode, the zero field and the function (R73). -/
theorem encodeShift_of_mask {w : Word} {f : BitVec 6} (h : w &&& 0xFFE0003F#32 = encodeShift 0#5 0#5 0#5 f) :
    encodeShift (rtOf w) (rdOf w) (saOf w) f = w :=
  have ⟨hop, hrs, _, _, _, hf⟩ := encodeShift_fields 0#5 0#5 0#5 f
  encodeShift_of_fields (extractLsb'_of_masked h rfl hop) (extractLsb'_of_masked h rfl hrs)
    (extractLsb'_of_masked h rfl hf)

/-- The mask of IMM, MEM and BR keeps the opcode (R75, R76, R77). -/
theorem encodeImm_of_mask {w : Word} {opcode : BitVec 6} (h : w &&& 0xFC000000#32 = encodeImm opcode 0#5 0#5 0#16) :
    encodeImm opcode (rsOf w) (rtOf w) (immediateOf w) = w :=
  encodeImm_of_fields (extractLsb'_of_masked h rfl (encodeImm_fields opcode 0#5 0#5 0#16).1) rfl

/-- The mask of LUI keeps `rs` as well (R75). -/
theorem encodeImm_of_mask_upper {w : Word} {opcode : BitVec 6}
    (h : w &&& 0xFFE00000#32 = encodeImm opcode 0#5 0#5 0#16) :
    encodeImm opcode 0#5 (rtOf w) (immediateOf w) = w :=
  have ⟨hop, hrs, _, _⟩ := encodeImm_fields opcode 0#5 0#5 0#16
  encodeImm_of_fields (extractLsb'_of_masked h rfl hop) (extractLsb'_of_masked h rfl hrs)

/-- The mask of JMP keeps the opcode (R78). -/
theorem encodeJump_of_mask {w : Word} {opcode : BitVec 6} (h : w &&& 0xFC000000#32 = encodeJump opcode 0#26) :
    encodeJump opcode (indexOf w) = w :=
  encodeJump_of_fields (extractLsb'_of_masked h rfl (encodeJump_fields opcode 0#26).1)

/-- If `w` matches the row, it is the word of an instruction with the row's mnemonic. -/
def RowIsEncoded (w : Word) (r : OpcodeRow) : Prop := r.matches w → ∃ i, encode i = w ∧ i.mnemonic = r.mnemonic

/-- The rows with major opcode SPECIAL (R81). -/
theorem rowIsEncoded_specialRows (w : Word) : ∀ r ∈ specialRows, RowIsEncoded w r := by
  simp only [specialRows, List.forall_mem_cons]
  exact ⟨fun h => ⟨.add _ _ _, encodeReg3_of_mask h, rfl⟩,
    fun h => ⟨.addu _ _ _, encodeReg3_of_mask h, rfl⟩,
    fun h => ⟨.and _ _ _, encodeReg3_of_mask h, rfl⟩,
    fun h => ⟨.jalr _ _, encodeReg3_of_mask_link h, rfl⟩,
    fun h => ⟨.jr _, encodeReg3_of_mask_jump h, rfl⟩,
    fun h => ⟨.nor _ _ _, encodeReg3_of_mask h, rfl⟩,
    fun h => ⟨.or _ _ _, encodeReg3_of_mask h, rfl⟩,
    fun h => ⟨.sll _ _ _, encodeShift_of_mask h, rfl⟩,
    fun h => ⟨.sllv _ _ _, encodeReg3_of_mask h, rfl⟩,
    fun h => ⟨.slt _ _ _, encodeReg3_of_mask h, rfl⟩,
    fun h => ⟨.sra _ _ _, encodeShift_of_mask h, rfl⟩,
    fun h => ⟨.srav _ _ _, encodeReg3_of_mask h, rfl⟩,
    fun h => ⟨.srl _ _ _, encodeShift_of_mask h, rfl⟩,
    fun h => ⟨.srlv _ _ _, encodeReg3_of_mask h, rfl⟩,
    fun h => ⟨.sub _ _ _, encodeReg3_of_mask h, rfl⟩,
    fun h => ⟨.subu _ _ _, encodeReg3_of_mask h, rfl⟩,
    fun h => ⟨.xor _ _ _, encodeReg3_of_mask h, rfl⟩,
    nofun⟩

/-- The rows of immediates, branches and jumps to an index (R80). -/
theorem rowIsEncoded_immediateRows (w : Word) : ∀ r ∈ immediateRows, RowIsEncoded w r := by
  simp only [immediateRows, List.forall_mem_cons]
  exact ⟨fun h => ⟨.addi _ _ _, encodeImm_of_mask h, rfl⟩,
    fun h => ⟨.andi _ _ _, encodeImm_of_mask h, rfl⟩,
    fun h => ⟨.lui _ _, encodeImm_of_mask_upper h, rfl⟩,
    fun h => ⟨.ori _ _ _, encodeImm_of_mask h, rfl⟩,
    fun h => ⟨.slti _ _ _, encodeImm_of_mask h, rfl⟩,
    fun h => ⟨.xori _ _ _, encodeImm_of_mask h, rfl⟩,
    fun h => ⟨.beq _ _ _, encodeImm_of_mask h, rfl⟩,
    fun h => ⟨.bne _ _ _, encodeImm_of_mask h, rfl⟩,
    fun h => ⟨.j _, encodeJump_of_mask h, rfl⟩,
    fun h => ⟨.jal _, encodeJump_of_mask h, rfl⟩,
    nofun⟩

/-- The rows of loads and stores (R80). -/
theorem rowIsEncoded_memoryRows (w : Word) : ∀ r ∈ memoryRows, RowIsEncoded w r := by
  simp only [memoryRows, List.forall_mem_cons]
  exact ⟨fun h => ⟨.lb _ _ _, encodeImm_of_mask h, rfl⟩,
    fun h => ⟨.lbu _ _ _, encodeImm_of_mask h, rfl⟩,
    fun h => ⟨.lh _ _ _, encodeImm_of_mask h, rfl⟩,
    fun h => ⟨.lhu _ _ _, encodeImm_of_mask h, rfl⟩,
    fun h => ⟨.lw _ _ _, encodeImm_of_mask h, rfl⟩,
    fun h => ⟨.lwu _ _ _, encodeImm_of_mask h, rfl⟩,
    fun h => ⟨.sb _ _ _, encodeImm_of_mask h, rfl⟩,
    fun h => ⟨.sh _ _ _, encodeImm_of_mask h, rfl⟩,
    fun h => ⟨.sw _ _ _, encodeImm_of_mask h, rfl⟩,
    nofun⟩

/-- Every row of the table is a row of an instruction (R86). -/
theorem rowIsEncoded {w : Word} : ∀ r ∈ opcodeRows, RowIsEncoded w r := by
  simp only [opcodeRows, List.forall_mem_append]
  exact ⟨⟨rowIsEncoded_specialRows w, rowIsEncoded_immediateRows w⟩, rowIsEncoded_memoryRows w⟩

/-- The word of every instruction matches the row that carries its mnemonic. -/
theorem encode_matches (i : Instr) : Laws.MatchesRow.Statement i := by
  cases i with
  | add rd rs rt => exact Laws.MatchesRow.add rd rs rt
  | addi rt rs immediate => exact Laws.MatchesRow.addi rt rs immediate
  | addu rd rs rt => exact Laws.MatchesRow.addu rd rs rt
  | and rd rs rt => exact Laws.MatchesRow.and rd rs rt
  | andi rt rs immediate => exact Laws.MatchesRow.andi rt rs immediate
  | beq rs rt offset => exact Laws.MatchesRow.beq rs rt offset
  | bne rs rt offset => exact Laws.MatchesRow.bne rs rt offset
  | j index => exact Laws.MatchesRow.j index
  | jal index => exact Laws.MatchesRow.jal index
  | jalr rd rs => exact Laws.MatchesRow.jalr rd rs
  | jr rs => exact Laws.MatchesRow.jr rs
  | lb rt offset base => exact Laws.MatchesRow.lb rt offset base
  | lbu rt offset base => exact Laws.MatchesRow.lbu rt offset base
  | lh rt offset base => exact Laws.MatchesRow.lh rt offset base
  | lhu rt offset base => exact Laws.MatchesRow.lhu rt offset base
  | lui rt immediate => exact Laws.MatchesRow.lui rt immediate
  | lw rt offset base => exact Laws.MatchesRow.lw rt offset base
  | lwu rt offset base => exact Laws.MatchesRow.lwu rt offset base
  | nor rd rs rt => exact Laws.MatchesRow.nor rd rs rt
  | or rd rs rt => exact Laws.MatchesRow.or rd rs rt
  | ori rt rs immediate => exact Laws.MatchesRow.ori rt rs immediate
  | sb rt offset base => exact Laws.MatchesRow.sb rt offset base
  | sh rt offset base => exact Laws.MatchesRow.sh rt offset base
  | sll rd rt sa => exact Laws.MatchesRow.sll rd rt sa
  | sllv rd rt rs => exact Laws.MatchesRow.sllv rd rt rs
  | slt rd rs rt => exact Laws.MatchesRow.slt rd rs rt
  | slti rt rs immediate => exact Laws.MatchesRow.slti rt rs immediate
  | sra rd rt sa => exact Laws.MatchesRow.sra rd rt sa
  | srav rd rt rs => exact Laws.MatchesRow.srav rd rt rs
  | srl rd rt sa => exact Laws.MatchesRow.srl rd rt sa
  | srlv rd rt rs => exact Laws.MatchesRow.srlv rd rt rs
  | sub rd rs rt => exact Laws.MatchesRow.sub rd rs rt
  | subu rd rs rt => exact Laws.MatchesRow.subu rd rs rt
  | sw rt offset base => exact Laws.MatchesRow.sw rt offset base
  | xor rd rs rt => exact Laws.MatchesRow.xor rd rs rt
  | xori rt rs immediate => exact Laws.MatchesRow.xori rt rs immediate

/-! ### The decoder and the table (R83, R86, R87) -/

/-- A word that matches a row decodes to an instruction with the row's mnemonic. -/
theorem decodeWord_of_matches {w : Word} {r : OpcodeRow} (hr : r ∈ opcodeRows) (h : r.matches w) :
    ∃ i, decodeWord w = .ok i ∧ i.mnemonic = r.mnemonic := by
  obtain ⟨i, rfl, hi⟩ := rowIsEncoded r hr h
  exact ⟨i, decodeWord_encode i, hi⟩

/-- A word that matches no row cannot decode, being else the word of an instruction, and so is refused. -/
theorem decodeWord_of_matches_none {w : Word} (h : ∀ r ∈ opcodeRows, ¬ r.matches w) :
    decodeWord w = .error (.unknownEncoding w) := by
  cases hd : decodeWord w with
  | ok i =>
    obtain ⟨r, hr, -, hm⟩ := encode_matches i
    rw [encode_of_decodeWord hd] at hm
    exact absurd hm (h r hr)
  | error e => rw [decodeWord_error hd]

/-- Settles O5. -/
theorem decoderIsTheTable : Obligations.DecoderIsTheTable :=
  fun _ => ⟨fun _ hr => decodeWord_of_matches hr, decodeWord_of_matches_none⟩

/-- No mnemonic stands in two rows. -/
theorem opcodeRows_mnemonic_nodup : (opcodeRows.map OpcodeRow.mnemonic).Nodup := by decide

/-- Settles O6: a word of two rows decodes to one instruction, whose mnemonic is that of both. -/
theorem tableRowsAreDisjoint : Obligations.TableRowsAreDisjoint := by
  intro r hr q hq w hrw hqw
  obtain ⟨i, hi, hri⟩ := decodeWord_of_matches hr hrw
  obtain ⟨k, hk, hqk⟩ := decodeWord_of_matches hq hqw
  have same : i = k := Except.ok.inj (hi.symm.trans hk)
  exact List.inj_on_of_nodup_map opcodeRows_mnemonic_nodup hr hq (by rw [← hri, ← hqk, same])

/-- Settles O1: each word is, bit for bit, the word of its instruction; the last has an opcode of no row. -/
theorem specWordsDecode : Obligations.SpecWordsDecode :=
  ⟨decodeWord_encode (.add 3#5 1#5 2#5), decodeWord_encode (.addi 2#5 1#5 0xFFFF#16),
    decodeWord_encode (.lui 1#5 0x1234#16), decodeWord_encode (.sll 3#5 2#5 4#5),
    decodeWord_encode (.sllv 3#5 2#5 1#5), decodeWord_encode (.beq 1#5 2#5 3#16),
    decodeWord_encode (.jal 0x0100008#26), decodeWord_encode (.jalr 31#5 5#5),
    decodeWord_encode (.lw 2#5 8#16 1#5), decodeWord_encode (.sb 2#5 3#16 1#5),
    decodeWord_encode (.lwu 2#5 8#16 1#5), decodeWord_of_matches_none (by decide)⟩

end Sys2Proof

namespace Sys2Proof.Machine

/-- A word that does not decode has no meaning in a step (step 4 of R24, R87 (b)). -/
theorem runWord_of_error {w : Word} {s : State} {e : DecodeError} (h : decodeWord w = .error e) :
    runWord w s = .refused (.unknownEncoding s) := by
  rw [runWord, h]

/-- Settles O33. -/
theorem unknownWordsAreRefused : Obligations.UnknownWordsAreRefused := by
  intro s w hd hf hnone
  rw [step_of_fetchWord hd hf]
  exact runWord_of_error (decodeWord_of_matches_none hnone)

/-! ### Destination 0 (R21, R88) -/

/-- A store writes no register (R22). -/
theorem isStore_of_writes {i : Instr} {r : RegId} (h : writes i = some r) : isStore i = false := by
  cases i with
  | sb | sh | sw => exact nomatch h
  | _ => rfl

/-- Settles O45: no other register is in the write set, register 0 reads zero, and an instruction with a destination is
no store. -/
theorem destinationZeroChangesNothing : Obligations.DestinationZeroChangesNothing := by
  intro s t i hw h
  refine ⟨fun r => ?_, onlyStoresWriteMemory s t i (isStore_of_writes hw) h⟩
  by_cases hr : r = 0#5
  · rw [hr, State.x_zero, State.x_zero]
  · exact writeSetIsAll s t i r h (fun e => hr (Option.some.inj (e.symm.trans hw)))

end Sys2Proof.Machine
end

section
/-!
PROOFS. Arithmetic and signed comparison (40_arithmetic.md, R100 to R108). The meanings compute on words with a test for
overflow; here they are tied to the exact integers of the spec. The rules for `Yields` come first: they serve every
instruction that writes one register and does nothing else.
-/

namespace Sys2Proof.Machine

/-! ### Instructions that write one register (R20, R21, R24) -/

/-- Register write and sequencing together make the whole next state of `Yields`. -/
theorem yields_of_exec {i : Instr} {s : State} {rd : RegId} {v : Word} (h : exec i s = writeResult rd v s) :
    Yields i s rd v := by
  refine ⟨(s.setX rd v).advance, h.trans (writeResult_eq rd v s), fun r => ?registers, ?memory, ?sequencing⟩
  case registers => rw [State.advance_x, State.x_setX]
  case memory => exact ⟨fun a => by rw [State.advance_mem, State.setX_mem], by simp, by simp⟩
  case sequencing => exact ⟨by simp, by simp, State.advance_ds _, State.advance_ld _⟩

/-- The model's way to take an exception gives the trap outcome of R211. -/
theorem raise_eq_trapOutcome (e : Exception) (s : State) : raise e s = trapOutcome e s := rfl

/-! ### Exact integers and words (R100, R106) -/

theorem fitsSigned_iff {v : Int} : fitsSigned v = true ↔ -2 ^ 31 ≤ v ∧ v ≤ 2 ^ 31 - 1 := by
  rw [fitsSigned, Bool.and_eq_true, decide_eq_true_iff, decide_eq_true_iff]

/-- Word addition is the exact signed sum modulo 2^32. -/
theorem ofInt_toInt_add (a b : Word) : BitVec.ofInt 32 (a.toInt + b.toInt) = a + b := by
  rw [BitVec.ofInt_add, BitVec.ofInt_toInt, BitVec.ofInt_toInt]

theorem ofInt_sub (x y : Int) : BitVec.ofInt 32 (x - y) = BitVec.ofInt 32 x - BitVec.ofInt 32 y := by
  rw [Int.sub_eq_add_neg, BitVec.ofInt_add, BitVec.ofInt_neg, BitVec.sub_eq_add_neg]

/-- Word subtraction is the exact signed difference modulo 2^32. -/
theorem ofInt_toInt_sub (a b : Word) : BitVec.ofInt 32 (a.toInt - b.toInt) = a - b := by
  rw [ofInt_sub, BitVec.ofInt_toInt, BitVec.ofInt_toInt]

/-- Word addition is also the unsigned sum modulo 2^32 (R103). -/
theorem ofNat_toNat_add (a b : Word) : BitVec.ofNat 32 (a.toNat + b.toNat) = a + b := by
  rw [BitVec.ofNat_add, BitVec.ofNat_toNat, BitVec.ofNat_toNat, BitVec.setWidth_eq, BitVec.setWidth_eq]

/-- Word subtraction is also the difference of the unsigned values modulo 2^32 (R105). -/
theorem ofInt_toNat_sub (a b : Word) : BitVec.ofInt 32 (a.toNat - b.toNat) = a - b := by
  rw [ofInt_sub, BitVec.ofInt_natCast, BitVec.ofInt_natCast, BitVec.ofNat_toNat, BitVec.ofNat_toNat,
    BitVec.setWidth_eq, BitVec.setWidth_eq]

/-- Sign extension keeps the signed value of an immediate (R79). -/
theorem toInt_signedImmediate (imm : BitVec 16) : (signedImmediate imm).toInt = imm.toInt :=
  BitVec.toInt_signExtend_of_le (by decide)

theorem signedLess_of_lt {a b : Word} (h : a.toInt < b.toInt) : signedLess a b = 1#32 := if_pos h

theorem signedLess_of_le {a b : Word} (h : b.toInt ≤ a.toInt) : signedLess a b = 0#32 := if_neg (Int.not_lt.mpr h)

/-! ### The meanings (R101 to R107) -/

section
variable (rd rs rt : RegId) (imm : BitVec 16) (s : State)

theorem exec_add : exec (.add rd rs rt) s
    = writeUnlessOverflow (!fitsSigned ((s.x rs).toInt + (s.x rt).toInt)) rd (s.x rs + s.x rt) s := rfl

theorem exec_sub : exec (.sub rd rs rt) s
    = writeUnlessOverflow (!fitsSigned ((s.x rs).toInt - (s.x rt).toInt)) rd (s.x rs - s.x rt) s := rfl

theorem exec_addi : exec (.addi rt rs imm) s
    = writeUnlessOverflow (!fitsSigned ((s.x rs).toInt + (signedImmediate imm).toInt)) rt
        (s.x rs + signedImmediate imm) s := rfl

theorem exec_addu : exec (.addu rd rs rt) s = writeResult rd (s.x rs + s.x rt) s := rfl

theorem exec_subu : exec (.subu rd rs rt) s = writeResult rd (s.x rs - s.x rt) s := rfl

theorem exec_slt : exec (.slt rd rs rt) s = writeResult rd (signedLess (s.x rs) (s.x rt)) s := rfl

theorem exec_slti : exec (.slti rt rs imm) s = writeResult rt (signedLess (s.x rs) (signedImmediate imm)) s := rfl

end

/-- An instruction with the overflow test on the exact result `v` has the two answers of R201. -/
theorem yieldsOrOverflows_of_exec {i : Instr} {s : State} {rd : RegId} {v : Int} {w : Word}
    (h : exec i s = writeUnlessOverflow (!fitsSigned v) rd w s) (hw : BitVec.ofInt 32 v = w) :
    YieldsOrOverflows i s rd v := by
  constructor
  · intro hfits
    rw [fitsSigned_iff.mpr hfits] at h
    rw [hw]
    exact yields_of_exec h
  · intro hout
    have hnot : fitsSigned v = false := by
      rw [← Bool.not_eq_true, fitsSigned_iff]
      omega
    rw [hnot] at h
    exact h.trans (raise_eq_trapOutcome .integerOverflow s)

/-- An instruction with an overflow test that completes does what it does without the test. -/
theorem writeResult_of_writeUnlessOverflow {o : Bool} {r : RegId} {v : Word} {s t : State}
    (h : writeUnlessOverflow o r v s = .next t) : writeResult r v s = .next t := by
  obtain ⟨-, rfl⟩ := writeUnlessOverflow_next_iff.mp h
  exact writeResult_eq r v s

/-! ### The statements -/

/-- Settles O7. The immediate of ADDI has the signed value of its sign extension. -/
theorem trappingArithmetic : Obligations.TrappingArithmetic := by
  intro s rd rs rt imm
  refine ⟨decodeWord_encode (.add rd rs rt), decodeWord_encode (.addi rt rs imm), decodeWord_encode (.sub rd rs rt),
    yieldsOrOverflows_of_exec (exec_add rd rs rt s) (ofInt_toInt_add _ _), ?_,
    yieldsOrOverflows_of_exec (exec_sub rd rs rt s) (ofInt_toInt_sub _ _)⟩
  rw [← toInt_signedImmediate imm]
  exact yieldsOrOverflows_of_exec (exec_addi rs rt imm s) (ofInt_toInt_add _ _)

/-- Settles O8: both meanings are the word operations, which compute modulo 2^32. -/
theorem wrappingArithmetic : Obligations.WrappingArithmetic := by
  intro s rd rs rt
  rw [ofNat_toNat_add, ofInt_toNat_sub]
  exact ⟨decodeWord_encode (.addu rd rs rt), decodeWord_encode (.subu rd rs rt),
    yields_of_exec (exec_addu rd rs rt s), yields_of_exec (exec_subu rd rs rt s)⟩

/-- Settles O9, with the immediate of SLTI read as in ADDI. -/
theorem signedComparison : Obligations.SignedComparison := by
  intro s rd rs rt imm
  have slt := yields_of_exec (exec_slt rd rs rt s)
  have slti := yields_of_exec (exec_slti rs rt imm s)
  rw [← toInt_signedImmediate imm]
  exact ⟨decodeWord_encode (.slt rd rs rt), decodeWord_encode (.slti rt rs imm),
    fun h => signedLess_of_lt h ▸ slt, fun h => signedLess_of_le h ▸ slt,
    fun h => signedLess_of_lt h ▸ slti, fun h => signedLess_of_le h ▸ slti⟩

/-- Settles O10: each pair differs by the overflow test only. -/
theorem trappingAndWrappingAgree : Obligations.TrappingAndWrappingAgree := by
  intro s t rd rs rt
  rw [exec_add, exec_addu, exec_sub, exec_subu]
  exact ⟨writeResult_of_writeUnlessOverflow, writeResult_of_writeUnlessOverflow⟩

end Sys2Proof.Machine
end

section
/-!
PROOFS. Bitwise logic and constants (41_logical.md, R120 to R127). The statements give a result by its bits, the meanings
compute it by word operations: one rule ties the two. A constant built in two halves rests on the same meanings.
-/

namespace Sys2Proof.Machine

/-! ### Results given bit by bit, and a result read back -/

/-- A word has no more than its 32 bits: a value with the bits of the result is the result. -/
theorem yields_of_getLsbD {i : Instr} {s : State} {rd : RegId} {v w : Word} {bit : Nat → Bool}
    (h : exec i s = writeResult rd w s) (hw : ∀ k < 32, w.getLsbD k = bit k) :
    (∀ k < 32, v.getLsbD k = bit k) → Yields i s rd v := by
  intro hv
  have hvw : v = w := BitVec.eq_of_getLsbD_eq fun k hk => (hv k hk).trans (hw k hk).symm
  rw [hvw]
  exact yields_of_exec h

/-- A register other than 0 holds what an instruction has just written to it (R20, R21). -/
theorem x_of_exec_writeResult {i : Instr} {s t : State} {r : RegId} {v : Word} (h : exec i s = writeResult r v s)
    (hr : r ≠ 0#5) (ht : exec i s = .next t) : t.x r = v := by
  obtain ⟨u, hu, hregisters, -, -⟩ := yields_of_exec h
  obtain rfl : u = t := Host.Outcome.next.inj (hu.symm.trans ht)
  rw [hregisters r, if_neg hr, if_pos rfl]

/-! ### Bits and halves of the operands (R79, R123) -/

theorem getLsbD_nor (a b : Word) {k : Nat} (hk : k < 32) :
    (~~~(a ||| b)).getLsbD k = !(a.getLsbD k || b.getLsbD k) := by
  rw [BitVec.getLsbD_not, BitVec.getLsbD_or, decide_eq_true hk, Bool.true_and]

/-- Zero extension keeps the bits of an immediate; from bit 16 up it has none. -/
theorem getLsbD_unsignedImmediate (imm : BitVec 16) {k : Nat} (hk : k < 32) :
    (unsignedImmediate imm).getLsbD k = imm.getLsbD k := by
  rw [unsignedImmediate, BitVec.getLsbD_setWidth, decide_eq_true hk, Bool.true_and]

/-- Zero extension puts 16 zeros above an immediate, as LUI puts them below. -/
theorem unsignedImmediate_eq_append (imm : BitVec 16) : unsignedImmediate imm = 0#16 ++ imm :=
  BitVec.setWidth_eq_append (by decide)

/-- Zeros below an immediate multiply it by 2^16, which still fits in a word (R122). -/
theorem upperImmediate_eq_ofNat (imm : BitVec 16) : upperImmediate imm = BitVec.ofNat 32 (imm.toNat * 2 ^ 16) := by
  apply BitVec.eq_of_toNat_eq
  rw [upperImmediate, BitVec.toNat_append, BitVec.toNat_ofNat, BitVec.toNat_ofNat, Nat.zero_mod, Nat.or_zero,
    Nat.shiftLeft_eq]
  exact (Nat.mod_eq_of_lt (by omega)).symm

/-- The halves of a constant do not overlap: no carry passes between them (R122, R125). -/
theorem unsignedImmediate_or_upperImmediate (hi lo : BitVec 16) :
    unsignedImmediate lo ||| upperImmediate hi = hi ++ lo := by
  rw [unsignedImmediate_eq_append, upperImmediate, BitVec.or_append, BitVec.zero_or, BitVec.or_zero]

/-! ### The meanings (R120 to R127) -/

section
variable (rd rs rt : RegId) (imm : BitVec 16) (s : State)

theorem exec_and : exec (.and rd rs rt) s = writeResult rd (s.x rs &&& s.x rt) s := rfl

theorem exec_nor : exec (.nor rd rs rt) s = writeResult rd (~~~(s.x rs ||| s.x rt)) s := rfl

theorem exec_or : exec (.or rd rs rt) s = writeResult rd (s.x rs ||| s.x rt) s := rfl

theorem exec_xor : exec (.xor rd rs rt) s = writeResult rd (s.x rs ^^^ s.x rt) s := rfl

theorem exec_andi : exec (.andi rt rs imm) s = writeResult rt (unsignedImmediate imm &&& s.x rs) s := rfl

theorem exec_lui : exec (.lui rt imm) s = writeResult rt (upperImmediate imm) s := rfl

theorem exec_ori : exec (.ori rt rs imm) s = writeResult rt (unsignedImmediate imm ||| s.x rs) s := rfl

theorem exec_xori : exec (.xori rt rs imm) s = writeResult rt (s.x rs ^^^ unsignedImmediate imm) s := rfl

end

/-! ### The statements -/

/-- Settles O11. -/
theorem registerLogic : Obligations.RegisterLogic := by
  intro s rd rs rt v
  exact ⟨decodeWord_encode (.and rd rs rt), decodeWord_encode (.nor rd rs rt), decodeWord_encode (.or rd rs rt),
    decodeWord_encode (.xor rd rs rt),
    yields_of_getLsbD (exec_and rd rs rt s) fun _ _ => BitVec.getLsbD_and,
    yields_of_getLsbD (exec_nor rd rs rt s) fun _ hk => getLsbD_nor _ _ hk,
    yields_of_getLsbD (exec_or rd rs rt s) fun _ _ => BitVec.getLsbD_or,
    yields_of_getLsbD (exec_xor rd rs rt s) fun _ _ => BitVec.getLsbD_xor⟩

/-- Settles O12: bit `k` of the zero-extended immediate is bit `k` of the immediate. -/
theorem immediateLogic : Obligations.ImmediateLogic := by
  intro s rs rt imm v
  refine ⟨decodeWord_encode (.andi rt rs imm), decodeWord_encode (.lui rt imm), decodeWord_encode (.ori rt rs imm),
    decodeWord_encode (.xori rt rs imm), yields_of_getLsbD (exec_andi rs rt imm s) fun k hk => ?andi, ?lui,
    yields_of_getLsbD (exec_ori rs rt imm s) fun k hk => ?ori,
    yields_of_getLsbD (exec_xori rs rt imm s) fun k hk => ?xori⟩
  case andi => rw [BitVec.getLsbD_and, getLsbD_unsignedImmediate imm hk]
  case lui =>
    rw [← upperImmediate_eq_ofNat]
    exact yields_of_exec (exec_lui rt imm s)
  case ori => rw [BitVec.getLsbD_or, getLsbD_unsignedImmediate imm hk]
  case xori => rw [BitVec.getLsbD_xor, getLsbD_unsignedImmediate imm hk]

/-- Settles O13: ORI reads the upper half that LUI has written, and fills in the lower. -/
theorem upperThenLowerBuildsAConstant : Obligations.UpperThenLowerBuildsAConstant := by
  intro s t u rt hi lo hrt hlui hori
  have upper : t.x rt = upperImmediate hi := x_of_exec_writeResult (exec_lui rt hi s) hrt hlui
  calc u.x rt
    _ = unsignedImmediate lo ||| t.x rt := x_of_exec_writeResult (exec_ori rt rt lo t) hrt hori
    _ = hi ++ lo := by rw [upper, unsignedImmediate_or_upperImmediate]

end Sys2Proof.Machine
end

section
/-!
PROOFS. Branches and jumps (42_branch_jump.md, R140 to R147). The statements give a target as a number, the meanings join
it from fields: the two are tied first. What a transfer leaves, what follows its delay slot, and what it does when it
is executed again are rules over every transfer.
-/

namespace Sys2Proof.Machine

/-! ### Targets (R140, R142) -/

/-- Joined words do not overlap: the upper one counts in multiples of the lower one's range. -/
theorem toNat_append_eq_mul_add {m n : Nat} (a : BitVec m) (b : BitVec n) :
    (a ++ b).toNat = a.toNat * 2 ^ n + b.toNat := by
  rw [BitVec.toNat_append, ← Nat.shiftLeft_add_eq_or_of_lt b.isLt, Nat.shiftLeft_eq]

/-- Two zero bits below an offset multiply it by 4, and sign extension keeps the product (R140). -/
theorem signExtend_offset_eq_ofInt (offset : BitVec 16) :
    (offset ++ 0b00#2).signExtend 32 = BitVec.ofInt 32 (4 * offset.toInt) := by
  rw [BitVec.signExtend, BitVec.toInt_append_zero]
  rfl

theorem branchTarget_eq_ofInt (offset : BitVec 16) (s : State) :
    branchTarget offset s = BitVec.ofInt 32 (s.pc.toNat + 4 + 4 * offset.toInt) := by
  rw [BitVec.ofInt_add, BitVec.ofInt_add, BitVec.ofInt_natCast, BitVec.ofNat_toNat, BitVec.setWidth_eq,
    ← signExtend_offset_eq_ofInt]
  rfl

/-- The region of a jump is the 256 MB around the delay slot: four bits of its address, then the index (R142). -/
theorem toNat_jumpTarget (index : BitVec 26) (s : State) :
    (jumpTarget index s).toNat = (s.pc + 4#32).toNat / 2 ^ 28 * 2 ^ 28 + 4 * index.toNat := by
  have htop : ((s.pc + 4#32).extractLsb' 28 4).toNat = (s.pc + 4#32).toNat / 2 ^ 28 := by
    rw [BitVec.extractLsb'_toNat, Nat.shiftRight_eq_div_pow]
    omega
  rw [jumpTarget, toNat_append_eq_mul_add, toNat_append_eq_mul_add, htop, BitVec.toNat_ofNat]
  omega

/-! ### The word of JR (R81, R144) -/

/-- The figure of JR prints as one field of 15 zeros what the register format has as three fields. -/
theorem append_fifteen_zeros (a : BitVec 11) : a ++ 0#15 = a ++ 0#5 ++ 0#5 ++ 0#5 := by
  apply BitVec.eq_of_toNat_eq
  simp only [toNat_append_eq_mul_add, BitVec.toNat_ofNat]
  omega

theorem encode_jr (rs : RegId) : encode (.jr rs) = 0b000000#6 ++ rs ++ 0b000000000000000#15 ++ 0b001000#6 := by
  rw [append_fifteen_zeros]
  rfl

/-! ### The meanings (R140 to R145) -/

section
variable (s : State) (rd rs rt : RegId) (offset : BitVec 16) (index : BitVec 26)

theorem exec_beq : exec (.beq rs rt offset) s
    = .next (s.advanceTransfer (if s.x rs = s.x rt then some (branchTarget offset s) else none)) := by
  simp [exec, execBeq, branchWhen]

theorem exec_bne : exec (.bne rs rt offset) s
    = .next (s.advanceTransfer (if s.x rs = s.x rt then none else some (branchTarget offset s))) := by
  simp [exec, execBne, branchWhen]

theorem exec_j : exec (.j index) s = .next (s.advanceTransfer (some (jumpTarget index s))) := rfl

theorem exec_jal : exec (.jal index) s
    = .next ((s.setX 31#5 (linkAddress s)).advanceTransfer (some (jumpTarget index s))) := rfl

theorem exec_jr : exec (.jr rs) s = .next (s.advanceTransfer (some (s.x rs))) := rfl

theorem exec_jalr_of_eq (h : rs = rd) : exec (.jalr rd rs) s = .refused (.jalrRsEqualsRd s) := if_pos h

theorem exec_jalr_of_ne (h : rs ≠ rd) : exec (.jalr rd rs) s
    = .next ((s.setX rd (linkAddress s)).advanceTransfer (some (s.x rs))) := if_neg h

end

/-! ### What a transfer leaves (R24, R147) -/

section
variable (s : State) (r : RegId) (v : Word) (o : Option Word)

theorem registersKept_advanceTransfer : RegistersKept s (s.advanceTransfer o) := fun _ => rfl

theorem registerSet_link : RegisterSet s ((s.setX r v).advanceTransfer o) r v := fun q => by
  rw [State.advanceTransfer_x, State.x_setX]

theorem memoryKept_advanceTransfer : MemoryKept s (s.advanceTransfer o) := ⟨fun _ => rfl, rfl, rfl⟩

theorem memoryKept_link : MemoryKept s ((s.setX r v).advanceTransfer o) := by
  simp [MemoryKept]

theorem transferEnd_advanceTransfer : TransferEnd s (s.advanceTransfer o) (o.getD (s.npc + 4#32)) :=
  ⟨rfl, rfl, rfl, rfl⟩

theorem transferEnd_link : TransferEnd s ((s.setX r v).advanceTransfer o) (o.getD (s.npc + 4#32)) := by
  simp [TransferEnd]

end

/-! ### After the delay slot (R43, R144, R146) -/

/-- After an instruction that is no transfer comes the instruction at the old `npc`, outside a delay slot (R146). -/
theorem exec_pc_ds_of_not_transfer {k : Instr} {t u : State} (hk : isControlTransfer k = false)
    (h : exec k t = .next u) : u.pc = t.npc ∧ u.ds = false :=
  ⟨exec_pc h, (exec_ds h).trans hk⟩

/-- A misaligned `pc` outside a delay slot raises at its own address when it is fetched (R43, R211). -/
theorem step_of_misaligned_pc {u : State} (hds : u.ds = false) (hd : u.done = false) (hpc : u.pc.toNat % 4 ≠ 0) :
    step u = .fault (.trap (.addressError .fetch u.pc) u.pc false u) := by
  obtain ⟨hmisaligned, -⟩ := fetchAnswers u hd
  rw [hmisaligned hpc, trapOutcome, hds]
  rfl

/-- A target left in `npc`, aligned or not, becomes the `pc` after the delay slot `k`; only there is its alignment
tested (R144). -/
theorem fetch_after_delay_slot {t : State} {target : Word} (hn : t.npc = target) (k : Instr) (u : State)
    (hk : isControlTransfer k = false) (h : exec k t = .next u) :
    u.pc = target ∧ u.ds = false
      ∧ (target.toNat % 4 ≠ 0 → u.done = false →
          step u = .fault (.trap (.addressError .fetch target) target false u)) := by
  obtain ⟨hpc, hds⟩ := exec_pc_ds_of_not_transfer hk h
  obtain rfl : u.pc = target := hpc.trans hn
  exact ⟨rfl, hds, fun hmis hd => step_of_misaligned_pc hds hd hmis⟩

/-! ### A step that fetches a given instruction, and a step in a delay slot (R24, R25) -/

/-- A step that fetches an instruction and completes has met no hazard and has run that instruction. -/
theorem exec_of_step_fetches {s t : State} {i : Instr} (hd : s.done = false) (hf : Fetches s i)
    (h : step s = .next t) : hazard i s = none ∧ exec i s = .next t := by
  cases hh : hazard i s with
  | some r => exact nomatch (step_of_fetches_hazard hd hf hh).symm.trans h
  | none => exact ⟨rfl, (step_of_fetches hd hf hh).symm.trans h⟩

/-- In a delay slot only an instruction that is no transfer can complete. -/
theorem exec_of_step_in_slot {t u : State} (hds : t.ds = true) (h : step t = .next u) :
    ∃ k, isControlTransfer k = false ∧ exec k t = .next u := by
  rcases step_next_iff.mp h with ⟨hdone, -⟩ | ⟨-, w, k, -, -, hh, hexec⟩
  · exact absurd ((State.done_of_ds hds).symm.trans hdone) Bool.false_ne_true
  · obtain ⟨hslot, -⟩ := hazard_eq_none_iff.mp hh
    refine ⟨k, Bool.eq_false_iff.mpr fun hk => ?_, hexec⟩
    exact Bool.false_ne_true ((hslot hk).symm.trans hds)

/-! ### A transfer executed again (R143, R145, R211) -/

/-- A transfer that completes does not read the register it links in: JAL reads none, and a JALR that would is
refused (R143, R145). -/
theorem link_not_read {i : Instr} {s t : State} {r : RegId} (hi : isControlTransfer i = true)
    (h : exec i s = .next t) (hw : writes i = some r) : r ∉ reads i := by
  cases i
  case jal index => exact List.not_mem_nil
  case jalr rd rs =>
    obtain rfl : rd = r := Option.some.inj hw
    intro hmem
    have hrs : rs = rd := (List.mem_singleton.mp hmem).symm
    exact nomatch (exec_jalr_of_eq s rd rs hrs).symm.trans h
  case beq | bne | j | jr => exact nomatch hw
  all_goals exact nomatch hi

/-- With `pc`, `npc`, `ds` and `ld` put back, of a transfer only the link is left. -/
theorem State.putBack_link (s : State) (r : RegId) (v : Word) (o : Option Word) :
    { (s.setX r v).advanceTransfer o with pc := s.pc, npc := s.npc, ds := s.ds, ld := s.ld } = s.setX r v := by
  obtain ⟨g, hg⟩ := s.setX_eq r v
  rw [hg]
  rfl

/-! ### The statements -/

/-- Settles O16. -/
theorem conditionalBranches : Obligations.ConditionalBranches := by
  intro s rs rt offset
  refine ⟨decodeWord_encode (.beq rs rt offset), decodeWord_encode (.bne rs rt offset),
    ⟨_, exec_beq s rs rt offset, registersKept_advanceTransfer s _, memoryKept_advanceTransfer s _, ?beq⟩,
    ⟨_, exec_bne s rs rt offset, registersKept_advanceTransfer s _, memoryKept_advanceTransfer s _, ?bne⟩⟩
  all_goals
    rw [← branchTarget_eq_ofInt]
    split <;> exact transferEnd_advanceTransfer s _

/-- Settles O17: the number determines the word, so the target of the statement is that of the meaning. -/
theorem regionJumps : Obligations.RegionJumps := by
  intro s index target htarget
  obtain rfl : jumpTarget index s = target :=
    BitVec.eq_of_toNat_eq ((toNat_jumpTarget index s).trans htarget.symm)
  exact ⟨decodeWord_encode (.j index), decodeWord_encode (.jal index),
    ⟨_, exec_j s index, registersKept_advanceTransfer s _, memoryKept_advanceTransfer s _,
      transferEnd_advanceTransfer s _⟩,
    ⟨_, exec_jal s index, registerSet_link s _ _ _, memoryKept_link s _ _ _, transferEnd_link s _ _ _⟩⟩

/-- Settles O18. -/
theorem registerJump : Obligations.RegisterJump := by
  intro s rs
  exact ⟨encode_jr rs ▸ decodeWord_encode (.jr rs), _, exec_jr s rs, registersKept_advanceTransfer s _,
    memoryKept_advanceTransfer s _, transferEnd_advanceTransfer s _, fetch_after_delay_slot rfl⟩

/-- Settles O19: JALR is JR with a link, and a refusal where the link would change what it reads. -/
theorem registerJumpAndLink : Obligations.RegisterJumpAndLink := by
  intro s rd rs
  refine ⟨decodeWord_encode (.jalr rd rs), exec_jalr_of_eq s rd rs, fun hne => ?_⟩
  exact ⟨_, exec_jalr_of_ne s rd rs hne, registerSet_link s _ _ _, memoryKept_link s _ _ _,
    transferEnd_link s _ _ _, fetch_after_delay_slot rfl⟩

/-- Settles O37: a transfer is never in a delay slot itself, so its `npc` is `pc` + 4 by the invariant. -/
theorem delaySlotRunsBeforeTheTarget : Obligations.DelaySlotRunsBeforeTheTarget := by
  intro s t u i hinv hd hf hi h
  obtain ⟨hh, hexec⟩ := exec_of_step_fetches hd hf h
  obtain ⟨hslot, -⟩ := hazard_eq_none_iff.mp hh
  have htpc : t.pc = s.pc + 4#32 := (exec_pc hexec).trans (hinv.sequential (hslot hi))
  have htds : t.ds = true := (exec_ds hexec).trans hi
  refine ⟨⟨htpc, htds⟩, fun hu => ?_⟩
  obtain ⟨k, hk, hkexec⟩ := exec_of_step_in_slot htds hu
  exact exec_pc_ds_of_not_transfer hk hkexec

/-- Settles O40: without a link the state put back is the old one; with a link it differs from it in a register that the
transfer does not read and writes again. -/
theorem reexecutingATransferIsHarmless : Obligations.ReexecutingATransferIsHarmless := by
  intro s t i hi h
  cases exec_next_cases h with
  | result r v hw hc => exact absurd (hc.symm.trans hi) Bool.false_ne_true
  | load r v hw hc => exact absurd (hc.symm.trans hi) Bool.false_ne_true
  | store v n p d hw hc => exact absurd (hc.symm.trans hi) Bool.false_ne_true
  | transfer o => exact h
  | link r v o hw =>
    have again := exec_sameButFor i s v (link_not_read hi h hw)
    rw [h] at again
    rw [State.putBack_link, again.of_next, State.keepX, if_pos hw]

end Sys2Proof.Machine
end

section
/-!
PROOFS. Loads (43_load.md, R160 to R167). Every answer of an access by its cause (R42, R46) comes first; a load raises the
exception of its access or completes with the value read. The values a load writes are tied to numbers last.
-/

namespace Sys2Proof.Machine

/-! ### Every answer of an access, by its cause (R42, R46, R208) -/

section
variable {s : State} {v : Word} {n : AccessSize} {iord : IorD} {lors : LorS} {e : Exception} {p : Nat}

theorem locate_of_misaligned (h : v.toNat % n.bytes ≠ 0) :
    locate s v n iord lors = .error (.addressError (accessKind iord lors) v) :=
  locate_error_iff.mpr (.inl ⟨(aligned_eq_false_iff n v).mpr h, rfl⟩)

theorem locate_of_translation_error (ha : v.toNat % n.bytes = 0)
    (ht : addressTranslation s.params.translation v iord lors = .error e) : locate s v n iord lors = .error e :=
  locate_error_iff.mpr (.inr (.inl ⟨(aligned_iff n v).mpr ha, ht⟩))

theorem locate_of_missing_byte (ha : v.toNat % n.bytes = 0)
    (ht : addressTranslation s.params.translation v iord lors = .ok p)
    (h : ∃ k < n.bytes, addressExists s.params (p + k) = false) :
    locate s v n iord lors = .error (.busError (accessKind iord lors) v) := by
  obtain ⟨k, hk, hmissing⟩ := h
  exact locate_error_iff.mpr (.inr (.inr ⟨p, (aligned_iff n v).mpr ha, ht, addressesExist_eq_false hk hmissing, rfl⟩))

theorem locate_of_bytes_exist (ha : v.toNat % n.bytes = 0)
    (ht : addressTranslation s.params.translation v iord lors = .ok p)
    (h : ∀ k < n.bytes, addressExists s.params (p + k) = true) : locate s v n iord lors = .ok p :=
  locate_ok_iff.mpr ⟨(aligned_iff n v).mpr ha, ht, (addressesExist_iff s.params p n.bytes).mpr h⟩

end

/-! ### What a load leaves (R20, R24, R26) -/

section
variable (s : State) (rt : RegId) (v : Word)

theorem registerSet_load : RegisterSet s ((s.setX rt v).advanceLoad rt) rt v := fun q => by
  rw [State.advanceLoad_x, State.x_setX]

theorem memoryKept_load : MemoryKept s ((s.setX rt v).advanceLoad rt) := by
  simp [MemoryKept]

theorem sequentialEnd_load :
    SequentialEnd s ((s.setX rt v).advanceLoad rt) (if rt = 0#5 then none else some rt) := by
  simp [SequentialEnd]

end

/-! ### Every answer of a load (R46, R167) -/

section
variable {i : Instr} {s : State} {n : AccessSize} {extend : BitVec n.bits → Word} {rt base : RegId}
  {offset : BitVec 16} {value : Nat → Word}

/-- A load whose access does not land raises what the access raises. -/
theorem loadWith_of_locate_error {e : Exception}
    (h : locate s (effectiveAddress offset base s) n .data .load = .error e) :
    loadWith n extend rt offset base s = trapOutcome e s := by
  rw [loadWith, memRead_error_iff.mpr h]
  exact raise_eq_trapOutcome e s

/-- An aligned load answers as its access does, with `value p` for the extended value at physical address `p`. -/
theorem loadLands_of_exec (h : exec i s = loadWith n extend rt offset base s)
    (hvalue : ∀ p, extend (s.valueAt p n) = value p) (ha : (effectiveAddress offset base s).toNat % n.bytes = 0) :
    LoadLands i s (effectiveAddress offset base s) n.bytes rt value := by
  refine ⟨fun e ht => ?raised, fun p ht hmissing => ?missing, fun p ht hexist => ?landed⟩
  case raised => exact h.trans (loadWith_of_locate_error (locate_of_translation_error ha ht))
  case missing => exact h.trans (loadWith_of_locate_error (locate_of_missing_byte ha ht hmissing))
  case landed =>
    have hnext : exec i s = .next ((s.setX rt (value p)).advanceLoad rt) := by
      rw [h, loadWith_next_iff, ← hvalue p]
      exact ⟨p, locate_of_bytes_exist ha ht hexist, rfl⟩
    exact ⟨_, hnext, registerSet_load s rt _, memoryKept_load s rt _, sequentialEnd_load s rt _⟩

theorem loadAnswers_of_exec (h : exec i s = loadWith n extend rt offset base s)
    (hvalue : ∀ p, extend (s.valueAt p n) = value p) :
    LoadAnswers i s (effectiveAddress offset base s) n.bytes rt value :=
  ⟨fun hmis => h.trans (loadWith_of_locate_error (locate_of_misaligned hmis)), loadLands_of_exec h hvalue⟩

end

/-! ### Addresses and values as numbers (R40, R79, R166) -/

/-- Sign extension is the word of the signed value. -/
theorem signExtend_eq_ofInt {w : Nat} (b : BitVec w) : b.signExtend 32 = BitVec.ofInt 32 b.toInt := rfl

/-- Zero extension is the word of the unsigned value. -/
theorem zeroExtend_eq_ofNat {w : Nat} (b : BitVec w) : b.zeroExtend 32 = BitVec.ofNat 32 b.toNat :=
  (BitVec.ofNat_toNat 32 b).symm

theorem State.valueAt_byte (s : State) (p : Nat) : s.valueAt p .byte = s.mem.read p := rfl

theorem State.valueAt_half (s : State) (p : Nat) : s.valueAt p .half = halfAt s p := by
  rw [State.valueAt, s.bigEndianCPU_eq]
  rfl

/-! ### The meanings (R160 to R165) -/

section
variable (rt base : RegId) (offset : BitVec 16) (s : State)

theorem exec_lb : exec (.lb rt offset base) s = loadWith .byte (BitVec.signExtend 32) rt offset base s := rfl

theorem exec_lbu : exec (.lbu rt offset base) s = loadWith .byte (BitVec.zeroExtend 32) rt offset base s := rfl

theorem exec_lh : exec (.lh rt offset base) s = loadWith .half (BitVec.signExtend 32) rt offset base s := rfl

theorem exec_lhu : exec (.lhu rt offset base) s = loadWith .half (BitVec.zeroExtend 32) rt offset base s := rfl

theorem exec_lw : exec (.lw rt offset base) s = loadWith .word (fun v => v) rt offset base s := rfl

theorem exec_lwu : exec (.lwu rt offset base) s = raise .reservedInstruction s := rfl

end

/-! ### The statements -/

/-- Settles O20: every address is a multiple of 1, so a byte access is never misaligned. -/
theorem byteLoads : Obligations.ByteLoads := by
  intro s rt base offset
  have haligned : (effectiveAddress offset base s).toNat % AccessSize.byte.bytes = 0 := Nat.mod_one _
  refine ⟨decodeWord_encode (.lb rt offset base), decodeWord_encode (.lbu rt offset base),
    loadLands_of_exec (exec_lb rt base offset s) (fun p => ?_) haligned,
    loadLands_of_exec (exec_lbu rt base offset s) (fun p => ?_) haligned⟩
  · rw [s.valueAt_byte, signExtend_eq_ofInt]
  · rw [s.valueAt_byte, zeroExtend_eq_ofNat]

/-- Settles O21. -/
theorem halfwordLoads : Obligations.HalfwordLoads := by
  intro s rt base offset
  refine ⟨decodeWord_encode (.lh rt offset base), decodeWord_encode (.lhu rt offset base),
    loadAnswers_of_exec (exec_lh rt base offset s) fun p => ?_,
    loadAnswers_of_exec (exec_lhu rt base offset s) fun p => ?_⟩
  · rw [s.valueAt_half, signExtend_eq_ofInt]
  · rw [s.valueAt_half, zeroExtend_eq_ofNat]

/-- Settles O22. -/
theorem wordLoads : Obligations.WordLoads := by
  intro s rt base offset
  exact ⟨decodeWord_encode (.lw rt offset base), loadAnswers_of_exec (exec_lw rt base offset s) s.valueAt_word⟩

/-- Settles O23: no address is formed and no field is looked at. -/
theorem loadWordUnsignedIsReserved : Obligations.LoadWordUnsignedIsReserved := by
  intro s rt base offset
  exact ⟨decodeWord_encode (.lwu rt offset base),
    (exec_lwu rt base offset s).trans (raise_eq_trapOutcome .reservedInstruction s)⟩

/-- Settles O27: the word of a sum is the sum of the words. -/
theorem effectiveAddressWraps : Obligations.EffectiveAddressWraps := by
  intro s offset base
  rw [BitVec.ofInt_add, BitVec.ofInt_natCast, BitVec.ofNat_toNat, BitVec.setWidth_eq, ← signExtend_eq_ofInt]
  rfl

end Sys2Proof.Machine
end

section
/-!
PROOFS. Stores (44_store.md, R180 to R183). A store raises the exception of its access, or completes with the low bytes of
the register in memory; the access answers as for the loads. The frame of a store is said for every size at once.
-/

namespace Sys2Proof.Machine

/-! ### What a store leaves (R24, R33, R47) -/

section
variable (s : State) (p : Nat) (n : AccessSize) (d : BitVec n.bits)

theorem registersKept_store : RegistersKept s (s.storeAt p n d).advance := fun _ => rfl

theorem sequentialEnd_store : SequentialEnd s (s.storeAt p n d).advance none := ⟨rfl, rfl, rfl, rfl⟩

theorem mem_written_store (a : Nat) :
    a ∈ (s.storeAt p n d).advance.written ↔ (p ≤ a ∧ a < p + n.bytes) ∨ a ∈ s.written :=
  mem_insertAddresses n.bytes p a s.written

end

/-! ### The bytes a store writes (R40, R47) -/

/-- The bytes of the `n` low bytes of a word are the bytes the statements name, in either byte order. -/
theorem byteOf_low_bits (s : State) (n : AccessSize) (d : Word) {k : Nat} (hk : k < n.bytes) :
    byteOf s.bigEndianCPU n.bytes (d.extractLsb' 0 n.bits) k = storedByte s n.bytes d k := by
  have hbits : n.bits = 8 * n.bytes := by cases n <;> rfl
  rw [byteOf, storedByte, s.bigEndianCPU_eq]
  exact BitVec.extractLsb'_extractLsb'_of_le (by split <;> omega)

theorem read_store_inside {s : State} (hm : s.mem.wf) (p : Nat) (n : AccessSize) (d : Word) {k : Nat}
    (hk : k < n.bytes) :
    (s.storeAt p n (d.extractLsb' 0 n.bits)).advance.mem.read (p + k) = storedByte s n.bytes d k := by
  rw [State.advance_mem, s.read_storeAt_inside hm p n _ hk, byteOf_low_bits s n d hk]

/-! ### Every answer of a store (R47, R183) -/

section
variable {i : Instr} {s : State} {n : AccessSize} {rt base : RegId} {offset : BitVec 16}

/-- A store whose access does not land raises what the access raises. -/
theorem storeWith_of_locate_error {e : Exception}
    (h : locate s (effectiveAddress offset base s) n .data .store = .error e) :
    storeWith n rt offset base s = trapOutcome e s := by
  rw [storeWith, memWrite_error_iff.mpr h]
  exact raise_eq_trapOutcome e s

/-- An aligned store answers as its access does. -/
theorem storeLands_of_exec (h : exec i s = storeWith n rt offset base s) (hm : s.mem.wf)
    (ha : (effectiveAddress offset base s).toNat % n.bytes = 0) :
    StoreLands i s (effectiveAddress offset base s) n.bytes (s.x rt) := by
  refine ⟨fun e ht => ?raised, fun p ht hmissing => ?missing, fun p ht hexist => ?landed⟩
  case raised => exact h.trans (storeWith_of_locate_error (locate_of_translation_error ha ht))
  case missing => exact h.trans (storeWith_of_locate_error (locate_of_missing_byte ha ht hmissing))
  case landed =>
    have hnext : exec i s = .next (s.storeAt p n ((s.x rt).extractLsb' 0 n.bits)).advance := by
      rw [h, storeWith_next_iff]
      exact ⟨p, locate_of_bytes_exist ha ht hexist, rfl⟩
    exact ⟨_, hnext, registersKept_store s p n _, rfl, sequentialEnd_store s p n _,
      fun _ => read_store_inside hm p n (s.x rt), fun _ => s.read_storeAt_outside p n _, mem_written_store s p n _⟩

theorem storeAnswers_of_exec (h : exec i s = storeWith n rt offset base s) (hm : s.mem.wf) :
    StoreAnswers i s (effectiveAddress offset base s) n.bytes (s.x rt) :=
  ⟨fun hmis => h.trans (storeWith_of_locate_error (locate_of_misaligned hmis)), storeLands_of_exec h hm⟩

end

/-! ### The meanings (R180 to R182) -/

section
variable (rt base : RegId) (offset : BitVec 16) (s : State)

theorem exec_sb : exec (.sb rt offset base) s = storeWith .byte rt offset base s := rfl

theorem exec_sh : exec (.sh rt offset base) s = storeWith .half rt offset base s := rfl

theorem exec_sw : exec (.sw rt offset base) s = storeWith .word rt offset base s := rfl

end

/-! ### The statements -/

/-- Settles O24: every address is a multiple of 1, so a byte access is never misaligned. -/
theorem byteStores : Obligations.ByteStores := by
  intro s rt base offset hm
  have haligned : (effectiveAddress offset base s).toNat % AccessSize.byte.bytes = 0 := Nat.mod_one _
  exact ⟨decodeWord_encode (.sb rt offset base), storeLands_of_exec (exec_sb rt base offset s) hm haligned⟩

/-- Settles O25. -/
theorem halfwordStores : Obligations.HalfwordStores := by
  intro s rt base offset hm
  exact ⟨decodeWord_encode (.sh rt offset base), storeAnswers_of_exec (exec_sh rt base offset s) hm⟩

/-- Settles O26. -/
theorem wordStores : Obligations.WordStores := by
  intro s rt base offset hm
  exact ⟨decodeWord_encode (.sw rt offset base), storeAnswers_of_exec (exec_sw rt base offset s) hm⟩

end Sys2Proof.Machine
end

section
/-!
PROOFS. Shifts (45_shift.md, R190 to R196). The statements give a result as a product or a floor quotient by a power of
two, the meanings compute it by word shifts: one rule for each of the three directions, for any count.
-/

namespace Sys2Proof.Machine

/-! ### Shifts and powers of two (R190, R192, R194) -/

/-- A left shift multiplies modulo 2^32: the bits shifted out are the multiples of 2^32. -/
theorem shiftLeft_eq_ofNat (a : Word) (n : Nat) : a <<< n = BitVec.ofNat 32 (a.toNat * 2 ^ n) := by
  apply BitVec.eq_of_toNat_eq
  rw [BitVec.toNat_shiftLeft, BitVec.toNat_ofNat, Nat.shiftLeft_eq]

/-- An arithmetic right shift, which repeats the sign bit, is the floor of the signed quotient. -/
theorem sshiftRight_eq_ofInt (a : Word) (n : Nat) : a.sshiftRight n = BitVec.ofInt 32 (a.toInt / 2 ^ n) := by
  rw [BitVec.sshiftRight, Int.shiftRight_eq_div_pow, Int.natCast_pow, Int.cast_ofNat_Int]

/-- A logical right shift, which fills in zeros, is the floor of the unsigned quotient. -/
theorem ushiftRight_eq_ofNat (a : Word) (n : Nat) : a >>> n = BitVec.ofNat 32 (a.toNat / 2 ^ n) := by
  rw [← Nat.shiftRight_eq_div_pow, ← BitVec.toNat_ushiftRight, BitVec.ofNat_toNat, BitVec.setWidth_eq]

/-- The low-order five bits of a register are its value modulo 32 (R196). -/
theorem registerCount_eq_mod (rs : RegId) (s : State) : registerCount rs s = (s.x rs).toNat % 32 := by
  rw [registerCount, BitVec.extractLsb'_toNat, Nat.shiftRight_zero]

/-! ### The meanings (R190 to R195) -/

section
variable (rd rt rs : RegId) (sa : BitVec 5) (s : State)

theorem exec_sll : exec (.sll rd rt sa) s = writeResult rd (s.x rt <<< sa.toNat) s := rfl

theorem exec_sra : exec (.sra rd rt sa) s = writeResult rd ((s.x rt).sshiftRight sa.toNat) s := rfl

theorem exec_srl : exec (.srl rd rt sa) s = writeResult rd (s.x rt >>> sa.toNat) s := rfl

theorem exec_sllv : exec (.sllv rd rt rs) s = writeResult rd (s.x rt <<< registerCount rs s) s := rfl

theorem exec_srav : exec (.srav rd rt rs) s = writeResult rd ((s.x rt).sshiftRight (registerCount rs s)) s := rfl

theorem exec_srlv : exec (.srlv rd rt rs) s = writeResult rd (s.x rt >>> registerCount rs s) s := rfl

end

/-! ### The statements -/

/-- Settles O14. -/
theorem constantShifts : Obligations.ConstantShifts := by
  intro s rd rt sa
  rw [← shiftLeft_eq_ofNat, ← sshiftRight_eq_ofInt, ← ushiftRight_eq_ofNat]
  exact ⟨decodeWord_encode (.sll rd rt sa), decodeWord_encode (.sra rd rt sa), decodeWord_encode (.srl rd rt sa),
    yields_of_exec (exec_sll rd rt sa s), yields_of_exec (exec_sra rd rt sa s), yields_of_exec (exec_srl rd rt sa s)⟩

/-- Settles O15: the same three rules, with the count read from a register. -/
theorem variableShifts : Obligations.VariableShifts := by
  intro s rd rt rs
  rw [← registerCount_eq_mod, ← shiftLeft_eq_ofNat, ← sshiftRight_eq_ofInt, ← ushiftRight_eq_ofNat]
  exact ⟨decodeWord_encode (.sllv rd rt rs), decodeWord_encode (.srav rd rt rs), decodeWord_encode (.srlv rd rt rs),
    yields_of_exec (exec_sllv rd rt rs s), yields_of_exec (exec_srav rd rt rs s),
    yields_of_exec (exec_srlv rd rt rs s)⟩

end Sys2Proof.Machine
end

section
/-!
PROOFS. Exceptions (60_exceptions.md, R200 to R211). What an instruction raises is said once, guards included, with the
trap it ends in; a step raises in its fetch or in its instruction, and both end in the same trap.
-/

namespace Sys2Proof.Machine

/-! ### What an access raises (R200, R202 to R205) -/

/-- An access raises Address Error, the exceptions of a translation or Bus Error, each of its own kind and address. -/
theorem locate_error_cases {s : State} {v : Word} {n : AccessSize} {iord : IorD} {lors : LorS} {e : Exception}
    (h : locate s v n iord lors = .error e) :
    e = .addressError (accessKind iord lors) v ∨ e = .tlbRefill (accessKind iord lors) v
      ∨ e = .tlbInvalid (accessKind iord lors) v ∨ (e = .tlbModified v ∧ lors = .store)
      ∨ e = .busError (accessKind iord lors) v := by
  rcases locate_error_iff.mp h with ⟨-, hmisaligned⟩ | ⟨-, htranslation⟩ | ⟨p, -, -, -, hmissing⟩
  · exact .inl hmisaligned
  · obtain ⟨-, hraised⟩ := translationKeepsItsRequirements s.params.translation v iord lors
    rcases hraised e htranslation with hrefill | hinvalid | hmodified | haddress
    · exact .inr (.inl hrefill)
    · exact .inr (.inr (.inl hinvalid))
    · exact .inr (.inr (.inr (.inl hmodified)))
    · exact .inl haddress
  · exact .inr (.inr (.inr (.inr hmissing)))

/-- Of a load, TLB Modified is not among them (R52 (c)). -/
theorem locate_load_error_cases {s : State} {v : Word} {n : AccessSize} {e : Exception}
    (h : locate s v n .data .load = .error e) :
    e = .addressError .load v ∨ e = .tlbRefill .load v ∨ e = .tlbInvalid .load v ∨ e = .busError .load v := by
  simpa [accessKind] using locate_error_cases h

theorem locate_store_error_cases {s : State} {v : Word} {n : AccessSize} {e : Exception}
    (h : locate s v n .data .store = .error e) :
    e = .addressError .store v ∨ e = .tlbRefill .store v ∨ e = .tlbInvalid .store v ∨ e = .tlbModified v
      ∨ e = .busError .store v := by
  simpa [accessKind] using locate_error_cases h

/-! ### The trap of each shape of a meaning (R210, R211) -/

section
variable {s : State} {f : Fault}

theorem raise_fault_iff {α : Type} {e : Exception} :
    (raise e s : Host.Outcome α Fault Refusal) = .fault f ↔ f = .trap e s.restartAddress s.ds s := by
  rw [raise, Host.Outcome.fault.injEq, eq_comm]

theorem writeUnlessOverflow_fault_iff {o : Bool} {r : RegId} {v : Word} :
    writeUnlessOverflow o r v s = .fault f ↔ o = true ∧ f = .trap .integerOverflow s.restartAddress s.ds s := by
  cases o with
  | true => simpa [writeUnlessOverflow] using raise_fault_iff
  | false => exact ⟨nofun, nofun⟩

theorem loadWith_fault_iff {n : AccessSize} {extend : BitVec n.bits → Word} {rt base : RegId} {offset : BitVec 16} :
    loadWith n extend rt offset base s = .fault f ↔
      ∃ e, locate s (effectiveAddress offset base s) n .data .load = .error e
        ∧ f = .trap e s.restartAddress s.ds s := by
  cases h : locate s (effectiveAddress offset base s) n .data .load <;> simp [loadWith, memRead, h, raise_fault_iff]

theorem storeWith_fault_iff {n : AccessSize} {rt base : RegId} {offset : BitVec 16} :
    storeWith n rt offset base s = .fault f ↔
      ∃ e, locate s (effectiveAddress offset base s) n .data .store = .error e
        ∧ f = .trap e s.restartAddress s.ds s := by
  cases h : locate s (effectiveAddress offset base s) n .data .store <;>
    simp [storeWith, memWrite, h, raise_fault_iff]

end

/-! ### What an instruction raises, and what a step raises (R200, R201, R206) -/

/-- The instructions that raise in `s`, each with its condition and its exception. -/
inductive Raises (s : State) : Instr → Exception → Prop where
  | add (rd rs rt : RegId) (ho : ovfAdd (s.x rs) (s.x rt) = true) : Raises s (.add rd rs rt) .integerOverflow
  | addi (rt rs : RegId) (imm : BitVec 16) (ho : ovfAdd (s.x rs) (signedImmediate imm) = true) :
      Raises s (.addi rt rs imm) .integerOverflow
  | sub (rd rs rt : RegId) (ho : ovfSub (s.x rs) (s.x rt) = true) : Raises s (.sub rd rs rt) .integerOverflow
  | lwu (rt : RegId) (offset : BitVec 16) (base : RegId) : Raises s (.lwu rt offset base) .reservedInstruction
  | load (i : Instr) (v : Word) (n : AccessSize) (e : Exception) (hi : isLoad i = true)
      (hl : locate s v n .data .load = .error e) : Raises s i e
  | store (i : Instr) (v : Word) (n : AccessSize) (e : Exception) (hi : isStore i = true)
      (hl : locate s v n .data .store = .error e) : Raises s i e

/-- Every fault of an instruction is the trap of an exception it raises, with the restart address, the delay-slot bit and
the whole state it began in. -/
theorem exec_fault_cases {i : Instr} {s : State} {f : Fault} (h : exec i s = .fault f) :
    ∃ e, Raises s i e ∧ f = .trap e s.restartAddress s.ds s := by
  cases i
  case add rd rs rt =>
    obtain ⟨ho, hf⟩ := writeUnlessOverflow_fault_iff.mp h
    exact ⟨_, .add rd rs rt ho, hf⟩
  case addi rt rs imm =>
    obtain ⟨ho, hf⟩ := writeUnlessOverflow_fault_iff.mp h
    exact ⟨_, .addi rt rs imm ho, hf⟩
  case sub rd rs rt =>
    obtain ⟨ho, hf⟩ := writeUnlessOverflow_fault_iff.mp h
    exact ⟨_, .sub rd rs rt ho, hf⟩
  case lwu rt offset base => exact ⟨_, .lwu rt offset base, raise_fault_iff.mp h⟩
  case lb | lbu | lh | lhu | lw =>
    obtain ⟨e, hl, hf⟩ := loadWith_fault_iff.mp h
    exact ⟨e, .load _ _ _ e rfl hl, hf⟩
  case sb | sh | sw =>
    obtain ⟨e, hl, hf⟩ := storeWith_fault_iff.mp h
    exact ⟨e, .store _ _ _ e rfl hl, hf⟩
  case jalr rd rs =>
    by_cases hrs : rs = rd
    · exact nomatch (exec_jalr_of_eq s rd rs hrs).symm.trans h
    · exact nomatch (exec_jalr_of_ne s rd rs hrs).symm.trans h
  all_goals exact nomatch h

/-- Whatever raises in a step, its fetch or its instruction, the step ends in the trap of the state it began in. -/
theorem step_fault_trap {s : State} {f : Fault} (h : step s = .fault f) :
    ∃ e, f = .trap e s.restartAddress s.ds s := by
  obtain ⟨-, hfetch | ⟨w, i, -, -, -, hexec⟩⟩ := step_fault_iff.mp h
  · obtain ⟨e, -, hf⟩ := fetchWord_fault_iff.mp hfetch
    exact ⟨e, hf⟩
  · obtain ⟨e, -, hf⟩ := exec_fault_cases hexec
    exact ⟨e, hf⟩

/-! ### The step into a delay slot (R25) -/

/-- A delay slot lies right after the branch or jump before it, which was not in a delay slot itself. -/
theorem pc_of_step_into_slot {s t : State} (hs : s.Inv) (h : step s = .next t) (ht : t.ds = true) :
    t.pc = s.pc + 4#32 := by
  rcases step_next_iff.mp h with ⟨hdone, rfl⟩ | ⟨-, w, i, -, -, hh, hexec⟩
  · exact absurd ((State.done_of_ds ht).symm.trans hdone) Bool.false_ne_true
  · obtain ⟨hslot, -⟩ := hazard_eq_none_iff.mp hh
    have hds : s.ds = false := hslot ((exec_ds hexec).symm.trans ht)
    exact (exec_pc hexec).trans (hs.sequential hds)

/-! ### The statements -/

/-- Settles O38. -/
theorem trapsArePrecise : Obligations.TrapsArePrecise := by
  intro s st e epc bd h
  obtain ⟨e', htrap⟩ := step_fault_trap h
  cases htrap
  exact ⟨rfl, rfl, rfl⟩

/-- Settles O39: the restart address of a trap in the slot is `pc` - 4, and the slot is at `pc` + 4 of the branch. -/
theorem delaySlotTrapNamesTheBranch : Obligations.DelaySlotTrapNamesTheBranch := by
  intro s t st e epc bd hs hstep hds htrap
  obtain ⟨hst, hbd, hepc⟩ := trapsArePrecise t st e epc bd htrap
  refine ⟨?_, hbd.trans hds, hst⟩
  calc epc = t.pc - 4#32 := hepc.trans (if_pos hds)
    _ = s.pc + 4#32 - 4#32 := by rw [pc_of_step_into_slot hs hstep hds]
    _ = s.pc := BitVec.add_sub_cancel s.pc 4#32

/-- Settles O41. -/
theorem exceptionsByInstruction : Obligations.ExceptionsByInstruction := by
  intro s st i e epc bd h
  obtain ⟨e', hraises, htrap⟩ := exec_fault_cases h
  obtain rfl : e = e' := (Fault.trap.inj htrap).1
  cases hraises with
  | add rd rs rt => exact .inl ⟨rfl, .inl ⟨rd, rs, rt, rfl⟩⟩
  | addi rt rs imm => exact .inl ⟨rfl, .inr (.inl ⟨rt, rs, imm, rfl⟩)⟩
  | sub rd rs rt => exact .inl ⟨rfl, .inr (.inr ⟨rd, rs, rt, rfl⟩)⟩
  | lwu rt offset base => exact .inr (.inl ⟨rfl, rt, offset, base, rfl⟩)
  | load i v n e hi hl => exact .inr (.inr (.inl ⟨hi, v, locate_load_error_cases hl⟩))
  | store i v n e hi hl => exact .inr (.inr (.inr ⟨hi, v, locate_store_error_cases hl⟩))

end Sys2Proof.Machine
end

section
/-!
PROOFS. Launch, hazards and the end of a run (70_reset_and_hazards.md): what reset leaves (R240), the invariant along a
run (R25, R33, R242), the load delay (R246) and the step at `EndPC` (R250, R251).
-/

namespace Sys2Proof.Machine

/-! ### Registers at a launch (R20, R240) -/

/-- Register `k + 1` is cell `k` (R20). -/
theorem State.x_succ (s : State) {k : Nat} (h : k < 31) : s.x (BitVec.ofNat 5 (k + 1)) = s.gpr[k] := by
  have hnat : (BitVec.ofNat 5 (k + 1)).toNat = k + 1 := Nat.mod_eq_of_lt (by omega)
  have hne : BitVec.ofNat 5 (k + 1) ≠ 0#5 := fun h0 => Nat.succ_ne_zero k (hnat.symm.trans (congrArg BitVec.toNat h0))
  simp [State.x, hne, hnat]

/-! ### The load delay (R246) -/

/-- A load is no branch or jump. -/
theorem not_transfer_of_isLoad {i : Instr} (h : isLoad i = true) : isControlTransfer i = false := by
  cases i with
  | lb | lbu | lh | lhu | lw => rfl
  | _ => exact nomatch h

/-- Outside a delay slot, the register of the load mark in the read set is a hazard. -/
theorem hazard_of_load_use {k : Instr} {s : State} {r : RegId} (hds : s.ds = false) (hld : s.ld = some r)
    (hr : r ∈ reads k) : hazard k s = some (.loadDelayViolation s) := by
  simp [hazard, hds, hld, hr]

/-! ### The end of a run (R250) -/

theorem State.done_eq_true_iff {s : State} : s.done = true ↔ s.params.endPC = some s.pc ∧ s.ds = false := by
  simp [State.done]

theorem State.done_eq_false_iff {s : State} : s.done = false ↔ s.params.endPC ≠ some s.pc ∨ s.ds = true := by
  rw [← Bool.not_eq_true, State.done_eq_true_iff, not_and_or, Bool.not_eq_false]

/-! ### The statements -/

/-- Settles O54. -/
theorem resetLeavesTheLaunchState : Obligations.ResetLeavesTheLaunchState := fun p g m =>
  ⟨State.x_zero _, fun _ hk => State.x_succ (State.launch p g m) hk, rfl, rfl, rfl, rfl, rfl, rfl, rfl⟩

/-- Settles O56. -/
theorem runEndsAtEndPC : Obligations.RunEndsAtEndPC := by
  intro s
  refine ⟨fun hend hds => ?_, fun hgoes w hfetch => ?_⟩
  · exact step_next_iff.mpr (.inl ⟨State.done_eq_true_iff.mpr ⟨hend, hds⟩, rfl⟩)
  · exact step_of_fetchWord (State.done_eq_false_iff.mpr hgoes) hfetch

/-- Settles O34: the load leaves its destination as the load mark, and `ds` = 0, so the refusal is that of R246. -/
theorem loadUseIsRefused : Obligations.LoadUseIsRefused := by
  intro s t i k rt hi hw hrt h hd hf hmem
  have hds : t.ds = false := (exec_ds h).trans (not_transfer_of_isLoad hi)
  have hld : t.ld = some rt := (exec_ld_of_load h hi hw).trans (if_neg hrt)
  exact step_of_fetches_hazard hd hf (hazard_of_load_use hds hld hmem)

/-- Settles O53, by induction along the run: every launch has the invariant and every step keeps it. -/
theorem runsKeepTheInvariant : Obligations.RunsKeepTheInvariant := by
  intro p g m hm he
  have hlaunch : (State.launch p g m).Inv := State.launch_inv p g m hm he
  exact ⟨hlaunch, fun _ _ hrun => run_keeps (M := Sys2Proof.core) stepKeepsTheInvariant hlaunch hrun⟩

end Sys2Proof.Machine
end
